-- ==== Sys2Proof/Word.lean ====
section
/-! DEFINITION. The words of the machine: a stream byte and a 32-bit header word (R6, R12). -/

namespace Sys2Proof

/-- A byte of the stream and a channel value: unsigned, 0 to 255 (R6). -/
abbrev Byte := BitVec 8

/-- A header word: the width and height registers are 32 bits (R12). -/
abbrev Word32 := BitVec 32

end Sys2Proof
end

