-- ==== Sys2Proof/Config.lean ====
section
/-! DEFINITION. What is fixed for the machine: the constants the spec fixes (R4, R5) and its two OPEN parameters, which have
no value here (D12, D13). -/

namespace Sys2Proof

/-- `AW`, the width in bits of `pc`, `LEN` and the `len` port: OPEN in the spec (R5, D13), so nothing is known of
its value. -/
opaque Config.addressWidth : Nat

/-- `TRAILER_LEN`, the number of bytes of the end marker some encoders append: a parameter of the HOST, OPEN in the
spec (R5, R36, D12), so nothing is known of its value. -/
opaque Config.trailerLen : Nat

/-- `CW`, the width in bits of `pix_count` (R5, D13). -/
def Config.counterWidth : Nat := 64

/-- `HEADER_LEN` (R4). -/
def Config.headerLen : Nat := 14

/-- The length in bytes of the longest opcode, RGBA (R37). -/
def Config.longestOpcode : Nat := 5

/-- The magic `qoif`, its four bytes in address order read as one number, most significant first (R27, R52; the
numeric codes are ASCII, G1). -/
def Config.magic : Word32 := 0x716F6966

end Sys2Proof
end

