-- ==== Sys2Proof/Syntax.lean ====
section
/-! DEFINITION. The encoded units (R37): one constructor per row of spec/opcode_table.json. Fields are the raw unsigned fields of
the encoding; the biases are applied by the meanings (R46, R59). -/

namespace Sys2Proof

/-- One encoded unit of a stream. -/
inductive Instr where
  /-- Format H (R38): the 14-byte header, selected by position. All fourteen bytes are fields, the magic too, since a
  wrong one is an exception of HDR itself (R52). -/
  | hdr (magic width height : Word32) (channels colorspace : Byte)
  /-- Format L3 (R40): tag `0xFE`, then red, green, blue. -/
  | rgb (r g b : Byte)
  /-- Format L4 (R41): tag `0xFF`, then red, green, blue, alpha. -/
  | rgba (r g b a : Byte)
  /-- Format X (R42): `00 iiiiii`. -/
  | index (idx : BitVec 6)
  /-- Format D (R43): `01 rr gg bb`. -/
  | diff (fr fg fb : BitVec 2)
  /-- Format M (R44): `10 gggggg`, then `rrrr bbbb`. -/
  | luma (fg : BitVec 6) (fro fbo : BitVec 4)
  /-- Format N (R45): `11 nnnnnn`, `n ≤ 61`. -/
  | run (n : BitVec 6)
  deriving DecidableEq, Repr

end Sys2Proof
end

