-- ==== Sys2Proof/WellFormed.lean ====
section
/-! DEFINITION. Which terms of Instr are legal units: the legal values of R38 and R45; every other field admits every value (R48). -/

namespace Sys2Proof

/-- The magic is `qoif` (R38, R52). -/
def legalMagic (m : Word32) : Bool := m == Config.magic

/-- The channel byte is 3 or 4, compared as a whole byte (R38, R55). -/
def legalChannelByte (c : Byte) : Bool := c == 3 || c == 4

/-- The colour-space byte is 0 or 1, compared as a whole byte (R38, R56). -/
def legalColorspaceByte (c : Byte) : Bool := c == 0 || c == 1

/-- A RUN payload is at most 61: 62 and 63 are the tags of RGB and RGBA (R45). -/
def legalRunField (n : BitVec 6) : Bool := decide (n.toNat ≤ 61)

/-- A legal unit. A HDR with another magic, channel or colour-space byte is decoded and RUN all the same (it raises, R51);
it is only not a legal header. -/
def Instr.wellFormed : Instr → Bool
  | .hdr m _ _ c s => legalMagic m && legalChannelByte c && legalColorspaceByte s
  | .rgb _ _ _ => true
  | .rgba _ _ _ _ => true
  | .index _ => true
  | .diff _ _ _ => true
  | .luma _ _ _ => true
  | .run n => legalRunField n

end Sys2Proof
end

