-- ==== Sys2Proof/Decode.lean ====
section
/-! DEFINITION. From bytes to units and back: `opcode_dispatcher` (R39, R59, R60), the decoder of a unit at a position (R37, R38),
and the encoder, written from the same layouts (R38, R40 to R45). -/

namespace Sys2Proof

/-- What `opcode_dispatcher` answers for a tag: an opcode with its raw fields (R59). -/
inductive Op where
  | rgb
  | rgba
  | index (idx : BitVec 6)
  | diff (fr fg fb : BitVec 2)
  | luma (fg : BitVec 6)
  | run (n : BitVec 6)
  /-- The default arm, kept though no tag reaches it (R60, D25). -/
  | unknown
  deriving DecidableEq, Repr

/-- Why bytes are no unit, by name. -/
inductive DecodeError where
  /-- The bytes end before the unit does (R48 (d)). -/
  | truncated
  /-- The dispatcher's default arm (R48 (b), R60). -/
  | unknownSelector
  deriving DecidableEq, Repr

/-- `sel = tag[7:6]` (R39). -/
def selector (tag : Byte) : BitVec 2 := tag.extractLsb' 6 2

/-- `payload = tag[5:0]` (R39). -/
def payload (tag : Byte) : BitVec 6 := tag.extractLsb' 0 6

/-- The function `Dispatch` of R59, its tests in the priority order of R39. -/
def dispatch (tag : Byte) : Op :=
  if tag = 0xFE then .rgb
  else if tag = 0xFF then .rgba
  else if selector tag = 0 then .index (payload tag)
  else if selector tag = 1 then
    .diff ((payload tag).extractLsb' 4 2) ((payload tag).extractLsb' 2 2) ((payload tag).extractLsb' 0 2)
  else if selector tag = 2 then .luma (payload tag)
  else if selector tag = 3 then .run (payload tag)
  else .unknown

/-- Four bytes as a big-endian unsigned number, `b0` at the lowest address (R26). -/
def bigEndian32 (b0 b1 b2 b3 : Byte) : Word32 :=
  BitVec.ofNat 32 (b0.toNat * 2 ^ 24 + b1.toNat * 2 ^ 16 + b2.toNat * 2 ^ 8 + b3.toNat)

/-- The unit at address 0: any fourteen bytes are a HDR, legal or not (R38, R51). Answers it with the bytes after it. -/
def decodeHeader : List Byte → Except DecodeError (Instr × List Byte)
  | m0 :: m1 :: m2 :: m3 :: w0 :: w1 :: w2 :: w3 :: h0 :: h1 :: h2 :: h3 :: c :: s :: rest =>
    .ok (.hdr (bigEndian32 m0 m1 m2 m3) (bigEndian32 w0 w1 w2 w3) (bigEndian32 h0 h1 h2 h3) c s, rest)
  | _ => .error .truncated

/-- The operand bytes of an opcode, after its tag (R40 to R45). Answers the unit with the bytes after it. -/
def decodeOperands : Op → List Byte → Except DecodeError (Instr × List Byte)
  | .rgb, r :: g :: b :: rest => .ok (.rgb r g b, rest)
  | .rgba, r :: g :: b :: a :: rest => .ok (.rgba r g b a, rest)
  | .index idx, rest => .ok (.index idx, rest)
  | .diff fr fg fb, rest => .ok (.diff fr fg fb, rest)
  | .luma fg, b2 :: rest => .ok (.luma fg (b2.extractLsb' 4 4) (b2.extractLsb' 0 4), rest)
  | .run n, rest => .ok (.run n, rest)
  | .unknown, _ => .error .unknownSelector
  | _, _ => .error .truncated

/-- The unit at any address after the header: its tag selects it (R39, R47, R49). -/
def decodeOpcode : List Byte → Except DecodeError (Instr × List Byte)
  | [] => .error .truncated
  | tag :: rest => decodeOperands (dispatch tag) rest

/-- The length of a unit in bytes (R37). -/
def unitLength : Instr → Nat
  | .hdr _ _ _ _ _ => 14
  | .rgb _ _ _ => 4
  | .rgba _ _ _ _ => 5
  | .index _ => 1
  | .diff _ _ _ => 1
  | .luma _ _ _ => 2
  | .run _ => 1

/-- The bytes of a 32-bit header word, most significant first (R28, R38). -/
def bytesOfWord32 (v : Word32) : List Byte :=
  [v.extractLsb' 24 8, v.extractLsb' 16 8, v.extractLsb' 8 8, v.extractLsb' 0 8]

/-- The bytes of a unit in address order (R38, R40 to R45). -/
def encode : Instr → List Byte
  | .hdr m w h c s => bytesOfWord32 m ++ bytesOfWord32 w ++ bytesOfWord32 h ++ [c, s]
  | .rgb r g b => [0xFE, r, g, b]
  | .rgba r g b a => [0xFF, r, g, b, a]
  | .index idx => [0b00#2 ++ idx]
  | .diff fr fg fb => [0b01#2 ++ fr ++ fg ++ fb]
  | .luma fg fro fbo => [0b10#2 ++ fg, fro ++ fbo]
  | .run n => [0b11#2 ++ n]

/-- Whether a unit is the one selected by position (R37). -/
def Instr.isHeader : Instr → Bool
  | .hdr _ _ _ _ _ => true
  | .rgb _ _ _ => false
  | .rgba _ _ _ _ => false
  | .index _ => false
  | .diff _ _ _ => false
  | .luma _ _ _ => false
  | .run _ => false

/-- `n` bytes of a number whose bits are numbered as spec/opcode_table.json numbers them: bit 0 is the least significant
bit of the first byte. -/
def tableBytes (n w : Nat) : List Byte :=
  (List.range n).map fun k => BitVec.ofNat 8 (w >>> (8 * k))

/-- Whether a table row of `nbits` bits is the header row: HDR is selected by position and no opcode is as long (R37). -/
def isHeaderRow (nbits : Nat) : Bool := decide (8 * Config.longestOpcode < nbits)

/-- The unit the decoder reads from a table word, every bit above `nbits` being 0. -/
def decodeTableWord (nbits w : Nat) : Option Instr :=
  let v := w % 2 ^ nbits
  match if isHeaderRow nbits then decodeHeader (tableBytes Config.headerLen v)
        else decodeOpcode (tableBytes Config.longestOpcode v) with
  | .ok (i, _) => some i
  | .error _ => none

end Sys2Proof
end

