-- ==== Sys2Proof/Machine/State.lean ====
section
/-! DEFINITION. The state of `QOI_decoder_fsm` (R8), its pins (R19), and the reasons a step or a host action can stop. -/

namespace Sys2Proof.Machine

/-- The control states of R11. Codes 6 and 7 are never held, so they are no value of this type. -/
inductive Fsm where
  | idle | header | dispatch | validate | done | error
  deriving DecidableEq, Repr

/-- The seven error kinds (R84). -/
inductive ErrorKind where
  | unexpectedEndOfInput | invalidMagic | invalidChannelCount | invalidColorSpace
  | corruptStream | lengthMismatch | malformedPixel
  deriving DecidableEq, Repr

/-- A pixel as the registers hold it: four 8-bit fields in both channel modes (R9, R16, D8, D19). -/
structure Pixel where
  r : Byte
  g : Byte
  b : Byte
  a : Byte
  deriving DecidableEq, Repr

/-- An element of `OUT`: three components when `channels = 3`, four when `channels = 4` (R17). -/
inductive OutPixel where
  | rgb (r g b : Byte)
  | rgba (r g b a : Byte)
  deriving DecidableEq, Repr

/-- A byte-addressed memory: the listed bytes, addresses strictly rising (`Memory.wf`). -/
abbrev Memory := List Host.Cell

/-- The input pins a step samples (R19). `len` is `AW` bits wide, held as a natural number (D13). -/
structure Pins where
  rst : Bool
  start : Bool
  len : Nat
  deriving DecidableEq, Repr

/-- Everything the spec gives the machine (R8), with the input buffer, its length and the pins. -/
structure State where
  /-- control register (R11) -/
  fsm : Fsm
  /-- the cursor, address in `IN` of the next byte not yet consumed (R10) -/
  pc : Nat
  /-- header register (R12) -/
  width : Word32
  /-- header register (R12) -/
  height : Word32
  /-- header register; 0 means no header parsed in this session (R12) -/
  channels : BitVec 3
  /-- header register, carried through and read by no rule (R12) -/
  colorspace : BitVec 1
  /-- the previous pixel (R9) -/
  prev : Pixel
  /-- the colour cache (R16, R74) -/
  cache : Vector Pixel 64
  /-- number of pixels appended in this session (R13) -/
  pixCount : Nat
  /-- sticky flag: a pixel of the wrong channel count was produced (R15) -/
  malformed : Bool
  /-- status register, 0 for none (R14) -/
  errCode : BitVec 4
  /-- `OUT`, the output sequence (R17) -/
  out : List OutPixel
  /-- `LEN`, sampled at START and held for the session (R23, R99) -/
  len : Nat
  /-- `IN`, the input buffer (R22, R23) -/
  input : Memory
  /-- the input pins (R19) -/
  pins : Pins
  deriving DecidableEq, Repr

/-- The all-zero pixel, `zero4` (R6). -/
def zero4 : Pixel := ⟨0, 0, 0, 0⟩

/-- The start value of `prev` in both channel modes (R9, R21). -/
def startPrev : Pixel := ⟨0, 0, 0, 255⟩

/-- Every slot at its reset and start value (R16, R21). -/
def emptyCache : Vector Pixel 64 := Vector.replicate 64 zero4

/-- Why a step stops. -/
inductive Fault where
  /-- Raised by `step` alone, in register values the spec says cannot occur (`pc > LEN` in DISPATCH, R58; `pc ≠ 0` in
  HEADER, R51): no step of R11 has its precondition. SAFE: the machine stops where the spec gives no step. -/
  | noStepEnabled
  deriving DecidableEq, Repr

/-- Why something has no meaning. -/
inductive Refusal where
  /-- An instruction that has no meaning yet, by its mnemonic. SAFE: nothing can be proved of it. No arm answers so. -/
  | notModelled (mnemonic : String)
  /-- Raised by `hostAct` alone: the host changes a byte of `IN[0..LEN−1]` during a session (U7, R35). SAFE: the spec gives
  such a run no meaning, and neither does the model. -/
  | inputChangedInSession
  /-- Raised by `hostAct` alone: the host changes the `len` port during a session (U7, R35). SAFE: the spec gives such a run no
  meaning, and neither does the model. -/
  | lenChangedInSession
  /-- Raised by `hostAct` alone: a length the `AW`-bit `len` port cannot carry (U11). SAFE. -/
  | lenTooWide
  deriving DecidableEq, Repr

/-- What a step or a meaning answers. -/
abbrev Result := Host.Outcome State Fault Refusal

/-- Right after reset: the "reset" column of R21. `LEN`, the pins and the input buffer have no reset value in the spec
(DESIGN CHOICE, logs 1, 3, 4). -/
def State.reset : State where
  fsm := .idle
  pc := 0
  width := 0
  height := 0
  channels := 0
  colorspace := 0
  prev := startPrev
  cache := emptyCache
  pixCount := 0
  malformed := false
  errCode := 0
  out := []
  len := 0
  input := []
  pins := ⟨false, false, 0⟩

end Sys2Proof.Machine
end

