-- ==== Sys2Proof/Machine/Ops.lean ====
section
/-! DEFINITION. The operations every step is made of: the input memory, the cursor reads (R24 to R27), `raise` (R7, R94), the
colour cache (R72, R74), the effective alpha (R73) and `Push` (R71). -/

namespace Sys2Proof.Machine

/-! ### The input memory (R22, R23) -/

/-- What an address that is not listed reads as. DESIGN CHOICE, unsafe (log 1): the host supplies every byte of
`IN[0..LEN−1]` before START (R23), so this is only how the byte 0 is written down. -/
def Memory.unlisted : Byte := 0

/-- One byte of memory. -/
def Memory.read : Memory → Nat → Byte
  | [], _ => Memory.unlisted
  | (a, v) :: m, k => if a = k then v else Memory.read m k

/-- Write one byte and keep the canonical form: an address that holds what an unlisted one reads as is not listed. -/
def Memory.write : Memory → Nat → Byte → Memory
  | [], k, v => if v = Memory.unlisted then [] else [(k, v)]
  | (a, b) :: m, k, v =>
    if a < k then (a, b) :: Memory.write m k v
    else if a = k then (if v = Memory.unlisted then m else (k, v) :: m)
    else if v = Memory.unlisted then (a, b) :: m else (k, v) :: (a, b) :: m

/-- Write consecutive bytes from an address on. -/
def Memory.writeBytes : Memory → Nat → List Byte → Memory
  | m, _, [] => m
  | m, k, v :: vs => Memory.writeBytes (Memory.write m k v) (k + 1) vs

/-- The canonical form: addresses strictly rising, no entry equal to what an unlisted address reads as. -/
def Memory.wf : Memory → Bool
  | [] => true
  | (a, v) :: m => v != Memory.unlisted && m.all (fun c => decide (a < c.1)) && Memory.wf m

/-- `MemRead(addr, n)`: `n` consecutive bytes in address order (R7). -/
def memRead (m : Memory) (addr n : Nat) : List Byte :=
  (List.range n).map fun k => Memory.read m (addr + k)

/-! ### Errors (R7, R14, R84, R94) -/

/-- The 3-bit codes of the control states (R11, D4). -/
def fsmCode : Fsm → BitVec 3
  | .idle => 0
  | .header => 1
  | .dispatch => 2
  | .validate => 3
  | .done => 4
  | .error => 5

/-- The codes of the error kinds (R14, R84, D5). -/
def errorCode : ErrorKind → BitVec 4
  | .unexpectedEndOfInput => 1
  | .invalidMagic => 2
  | .invalidChannelCount => 3
  | .invalidColorSpace => 4
  | .corruptStream => 5
  | .lengthMismatch => 6
  | .malformedPixel => 7

/-- `raise <Kind>`, the entry into ERROR: it writes `fsm` and `err_code` and nothing else; what the step wrote before it
stays (R7, R94). There is no saved pc, no handler and no return (R94, R95). -/
def raise (k : ErrorKind) (s : State) : Result :=
  .next { s with fsm := .error, errCode := errorCode k }

/-! ### Cursor reads (R24 to R27) -/

/-- `ReadBytes(n)` (R24): the test is made on the whole of `n` before a byte is consumed; `none` is the failed read, which
leaves `pc` where it was. -/
def readBytes (n : Nat) (s : State) : Option (List Byte × State) :=
  if s.len - s.pc < n then none
  else some (memRead s.input s.pc n, { s with pc := s.pc + n })

/-- `ReadByte()` (R25). -/
def readByte (s : State) : Option (Byte × State) :=
  match readBytes 1 s with
  | some ([b], s') => some (b, s')
  | _ => none

/-- `ReadU32BE()` (R26). -/
def readU32BE (s : State) : Option (Word32 × State) :=
  match readBytes 4 s with
  | some ([b0, b1, b2, b3], s') => some (bigEndian32 b0 b1 b2 b3, s')
  | _ => none

/-- A cursor read of `n` bytes whose values the decoded unit already carries: go on with the cursor moved, or raise
`UnexpectedEndOfInput` with `pc` where it was (R24, R85). -/
def consume (n : Nat) (s : State) (k : State → Result) : Result :=
  match readBytes n s with
  | none => raise .unexpectedEndOfInput s
  | some (_, s') => k s'

/-! ### The colour cache and the push (R71 to R74) -/

/-- `Hash(r, g, b, a)` (R72): the exact sum, then its remainder mod 64. -/
def slotIndex (p : Pixel) : BitVec 6 :=
  BitVec.ofNat 6 ((p.r.toNat * 3 + p.g.toNat * 5 + p.b.toNat * 7 + p.a.toNat * 11) % 64)

/-- The read port of `pixel_cache_indexer` (R74). -/
def readCache (cache : Vector Pixel 64) (idx : BitVec 6) : Pixel := cache[idx.toNat]'(idx.isLt)

/-- The write port of `pixel_cache_indexer` (R74): all four fields of one slot. -/
def writeCache (cache : Vector Pixel 64) (idx : BitVec 6) (p : Pixel) : Vector Pixel 64 :=
  cache.set idx.toNat p idx.isLt

/-- The pixel with its effective alpha (R73): its own when `channels = 4`, else 255. -/
def effective (channels : BitVec 3) (p : Pixel) : Pixel :=
  { p with a := if channels = 4 then p.a else 255 }

/-- The element of `OUT` a pushed pixel makes (R71). -/
def outPixel (channels : BitVec 3) (p : Pixel) : OutPixel :=
  if channels = 4 then .rgba p.r p.g p.b p.a else .rgb p.r p.g p.b

/-- `Push(p)` (R71): append to `OUT`, set `prev`, write the slot of the pixel's own slot index. -/
def push (p : Pixel) (s : State) : State :=
  let q := effective s.channels p
  { s with
    out := s.out ++ [outPixel s.channels q]
    pixCount := s.pixCount + 1
    prev := q
    cache := writeCache s.cache (slotIndex q) q }

/-- `repeat n times: Push(p)` (R70). -/
def pushN : Nat → Pixel → State → State
  | 0, _, s => s
  | n + 1, p, s => pushN n p (push p s)

end Sys2Proof.Machine
end

