-- ==== Sys2Proof/Machine/Control.lean ====
section
/-! DEFINITION. The steps that are no instruction: RESET (R98), START (R99), EOS (R58), VALIDATE (R77), and which step each
state takes (R11). -/

namespace Sys2Proof.Machine

/-- The step a state takes. -/
inductive Action where
  | reset | start | quiet | hdr | eos | opcode | validate | stuck
  deriving DecidableEq, Repr

/-- The table of R11 with its preconditions: `rst` before everything (R98); START when `start` is 1 in IDLE, DONE and ERROR
(R99), else none; HDR with `pc = 0` (R51); EOS when `pc = LEN` (R58), an opcode when `pc < LEN` (R59). -/
def action (s : State) : Action :=
  if s.pins.rst then .reset
  else match s.fsm with
    | .idle => if s.pins.start then .start else .quiet
    | .done => if s.pins.start then .start else .quiet
    | .error => if s.pins.start then .start else .quiet
    | .header => if s.pc = 0 then .hdr else .stuck
    | .dispatch => if s.pc = s.len then .eos else if s.pc < s.len then .opcode else .stuck
    | .validate => .validate

/-- The registers that reset and START set alike (R21, R98, R99); `fsm` and `LEN` are theirs. -/
def initialise (s : State) : State :=
  { s with
    pc := 0
    width := 0
    height := 0
    channels := 0
    colorspace := 0
    prev := startPrev
    cache := emptyCache
    pixCount := 0
    malformed := false
    errCode := 0
    out := [] }

/-- RESET (R98). `LEN` is no register of R21 and keeps its value (DESIGN CHOICE, log 3). -/
def resetStep (s : State) : State := { initialise s with fsm := .idle }

/-- START (R99): `LEN` is sampled from the `len` port. -/
def startStep (s : State) : State := { initialise s with fsm := .header, len := s.pins.len }

/-- EOS (R58): the input is exhausted. -/
def eosStep (s : State) : State := { s with fsm := .validate }

/-- `width × height`, the exact product (R69 (f), D24). -/
def expectedPixels (s : State) : Nat := s.width.toNat * s.height.toNat

/-- VALIDATE (R77): zero area (R79), length (R78), shape (R80), in that order; then DONE (R83). -/
def validateStep (s : State) : Result :=
  if expectedPixels s = 0 then raise .lengthMismatch s
  else if s.pixCount ≠ expectedPixels s then raise .lengthMismatch s
  else if s.malformed then raise .malformedPixel s
  else .next { s with fsm := .done }

end Sys2Proof.Machine
end

