-- ==== Sys2Proof/Machine/Operands.lean ====
section
/-! DEFINITION. The operand forms: every signed quantity is an unsigned field minus its bias, an integer (R46), and a delta is added to
a channel mod 256 (R69 (a)). -/

namespace Sys2Proof.Machine

/-- A DIFF delta: `field − 2`, in −2..+1 (R43, R46). -/
def diffDelta (f : BitVec 2) : Int := (f.toNat : Int) - 2

/-- LUMA's green delta: `field − 32`, in −32..+31 (R44, R46). -/
def lumaGreen (f : BitVec 6) : Int := (f.toNat : Int) - 32

/-- A LUMA red or blue offset: `field − 8`, in −8..+7 (R44, R46). -/
def lumaOffset (f : BitVec 4) : Int := (f.toNat : Int) - 8

/-- A RUN's count: `field + 1` (R45, R69 (c)). -/
def runCount (n : BitVec 6) : Nat := n.toNat + 1

/-- `(old + delta) mod 256`, exact and then reduced: wrap-around, not clamping (R69 (a)). -/
def addDelta (old : Byte) (delta : Int) : Byte := BitVec.ofInt 8 (((old.toNat : Int) + delta) % 256)

/-- The previous pixel with three deltas added, alpha unchanged (R67, R68). -/
def addDeltas (p : Pixel) (dr dg db : Int) : Pixel :=
  ⟨addDelta p.r dr, addDelta p.g dg, addDelta p.b db, p.a⟩

end Sys2Proof.Machine
end

