-- ==== Sys2Proof/Machine/Delta.lean ====
section
/-! DEFINITION. The meanings of the delta opcodes DIFF and LUMA (R67, R68). -/

namespace Sys2Proof.Machine

/-- DIFF (R67): three deltas in −2..+1, each channel wraps on its own. -/
def execDiff (fr fg fb : BitVec 2) (s : State) : Result :=
  consume 1 s fun s =>
  .next (push (addDeltas s.prev (diffDelta fr) (diffDelta fg) (diffDelta fb)) s)

/-- LUMA (R68): one operand byte; the red and blue deltas are relative to the green one, formed as exact integers. -/
def execLuma (fg : BitVec 6) (fro fbo : BitVec 4) (s : State) : Result :=
  consume 1 s fun s =>
  consume 1 s fun s =>
  .next (push (addDeltas s.prev (lumaGreen fg + lumaOffset fro) (lumaGreen fg) (lumaGreen fg + lumaOffset fbo)) s)

end Sys2Proof.Machine
end

