-- ==== Sys2Proof/Machine/Header.lean ====
section
/-! DEFINITION. The meaning of HDR (R51 to R57). -/

namespace Sys2Proof.Machine

/-- HDR (R51): each field is read and, where it has one, checked before the next is read; the four header registers are
written together by the last action (R57). -/
def execHdr (magic width height : Word32) (channels colorspace : Byte) (s : State) : Result :=
  consume 4 s fun s =>
  if magic ≠ Config.magic then raise .invalidMagic s else
  consume 4 s fun s =>
  consume 4 s fun s =>
  consume 1 s fun s =>
  if channels ≠ 3 ∧ channels ≠ 4 then raise .invalidChannelCount s else
  consume 1 s fun s =>
  if colorspace ≠ 0 ∧ colorspace ≠ 1 then raise .invalidColorSpace s else
  .next { s with
    width := width
    height := height
    channels := channels.setWidth 3
    colorspace := colorspace.setWidth 1
    fsm := .dispatch }

end Sys2Proof.Machine
end

