-- ==== Sys2Proof/Machine/Index.lean ====
section
/-! DEFINITION. The meaning of the cache reference opcode INDEX (R66). -/

namespace Sys2Proof.Machine

/-- INDEX (R66): the slot is read before the push of the same step writes; the push is a real one (R103). -/
def execIndex (idx : BitVec 6) (s : State) : Result :=
  consume 1 s fun s =>
  .next (push (readCache s.cache idx) s)

end Sys2Proof.Machine
end

