-- ==== Sys2Proof/Machine/Flags.lean ====
section
/-! DEFINITION. The one flag, `malformed` (R15). There are no condition codes and no opcode tests a flag. -/

namespace Sys2Proof.Machine

/-- RGBA's flag rule: four channel values in a three-channel image set the sticky flag; nothing clears it (R15, R65). -/
def markMalformed (s : State) : State :=
  if s.channels = 3 then { s with malformed := true } else s

end Sys2Proof.Machine
end

