-- ==== Sys2Proof/Machine/Literal.lean ====
section
/-! DEFINITION. The meanings of the literal opcodes RGB and RGBA (R64, R65). -/

namespace Sys2Proof.Machine

/-- RGB (R64): three operand bytes; alpha is copied from the previous pixel. -/
def execRgb (r g b : Byte) (s : State) : Result :=
  consume 1 s fun s =>
  consume 3 s fun s =>
  .next (push ⟨r, g, b, s.prev.a⟩ s)

/-- RGBA (R65): four operand bytes; when `channels = 3` the flag is set and `Push` replaces alpha by 255. -/
def execRgba (r g b a : Byte) (s : State) : Result :=
  consume 1 s fun s =>
  consume 4 s fun s =>
  .next (push ⟨r, g, b, a⟩ (markMalformed s))

end Sys2Proof.Machine
end

