-- ==== Sys2Proof/Machine/Run.lean ====
section
/-! DEFINITION. The meaning of the repeat opcode RUN (R70). -/

namespace Sys2Proof.Machine

/-- RUN (R70): the previous pixel before this opcode is pushed `n + 1` times, each a real push (R104). -/
def execRun (n : BitVec 6) (s : State) : Result :=
  consume 1 s fun s =>
  .next (pushN (runCount n) s.prev s)

end Sys2Proof.Machine
end

