-- ==== Sys2Proof/Machine/Fetch.lean ====
section
/-! DEFINITION. Fetching the unit at the cursor, and laying a unit down where it will be fetched. -/

namespace Sys2Proof.Machine

/-- What the block has of the byte at an address: the byte of `IN`, or nothing (0, never used) at `LEN` and beyond, where
`in_addr` never goes (R19). DESIGN CHOICE, safe (log 7): every meaning tests `LEN` before it uses an operand. -/
def latch (s : State) (addr : Nat) : Byte := if addr < s.len then Memory.read s.input addr else 0

/-- `n` latched bytes from the cursor on. -/
def window (n : Nat) (s : State) : List Byte := (List.range n).map fun k => latch s (s.pc + k)

/-- The unit at the cursor in state HEADER (R37: recognised by position). -/
def fetchHeader (s : State) : Except DecodeError (Instr × List Byte) :=
  decodeHeader (window Config.headerLen s)

/-- The unit at the cursor in state DISPATCH (R37, R59: recognised by its tag). -/
def fetchOpcode (s : State) : Except DecodeError (Instr × List Byte) :=
  decodeOpcode (window Config.longestOpcode s)

/-- The step when the bytes are no unit: the tag is consumed and the dispatcher's default arm raises `CorruptStream` (R59,
R60). No tag reaches either arm. -/
def fetchFailed (e : DecodeError) (s : State) : Result :=
  match e with
  | .unknownSelector => consume 1 s fun s => raise .corruptStream s
  | .truncated => raise .unexpectedEndOfInput s

/-- Bytes at address 0 of `IN`, `LEN` at least their number, and the block in HEADER with the cursor there. -/
def placeHeader (bytes : List Byte) (s : State) : State :=
  { s with
    fsm := .header
    pc := 0
    len := max s.len bytes.length
    input := Memory.writeBytes s.input 0 bytes
    pins := { s.pins with rst := false } }

/-- Where the next opcode is fetched: at the cursor in DISPATCH, else at 14, the first opcode's address (R31). -/
def opcodeAddress (s : State) : Nat := if s.fsm = .dispatch then s.pc else Config.headerLen

/-- The channel count with which an opcode is fetched: a legal one is kept; without a parsed header, 4 (DESIGN CHOICE,
log 10: DISPATCH is entered only with 3 or 4, R12). -/
def opcodeChannels (s : State) : BitVec 3 := if s.channels = 3 then 3 else 4

/-- Bytes where the next opcode is fetched, `LEN` beyond them, and the block in DISPATCH with the cursor there. -/
def placeOpcode (bytes : List Byte) (s : State) : State :=
  { s with
    fsm := .dispatch
    pc := opcodeAddress s
    len := max s.len (opcodeAddress s + bytes.length)
    channels := opcodeChannels s
    input := Memory.writeBytes s.input (opcodeAddress s) bytes
    pins := { s.pins with rst := false } }

end Sys2Proof.Machine
end

