-- ==== Sys2Proof/Machine/Step.lean ====
section
/-! DEFINITION. One architectural step (R11): the union of RESET, START, HDR, EOS, the opcode step and VALIDATE. -/

namespace Sys2Proof.Machine

/-- One step. A quiescent state with no `start` answers itself (R11 "else none", R83; log 5). -/
def step (s : State) : Host.Outcome State Fault Refusal :=
  match action s with
  | .reset => .next (resetStep s)
  | .start => .next (startStep s)
  | .quiet => .next s
  | .hdr =>
    match fetchHeader s with
    | .ok (i, _) => exec i s
    | .error e => fetchFailed e s
  | .eos => .next (eosStep s)
  | .opcode =>
    match fetchOpcode s with
    | .ok (i, _) => exec i s
    | .error e => fetchFailed e s
  | .validate => validateStep s
  | .stuck => .fault .noStepEnabled

/-- `s` with the unit of a table word where the very next step fetches (log 10). -/
def State.withFetchWord (s : State) (nbits w : Nat) : State :=
  if isHeaderRow nbits then placeHeader (tableBytes Config.headerLen (w % 2 ^ nbits)) s
  else placeOpcode (tableBytes Config.longestOpcode (w % 2 ^ nbits)) s

end Sys2Proof.Machine
end

