-- ==== Sys2Proof/Machine/Ports.lean ====
section
/-! DEFINITION. What the host sees: the status ports and the pixel port (R19), and the result of a session (R81, R83). -/

namespace Sys2Proof.Machine

/-- The output status ports of R19, each under its own name. -/
structure StatusPorts where
  busy : Bool
  done : Bool
  error : Bool
  err_code : BitVec 4
  hdr_width : Word32
  hdr_height : Word32
  hdr_channels : BitVec 3
  hdr_colorspace : BitVec 1
  pix_count : Nat
  pc : Nat
  deriving DecidableEq, Repr

/-- `busy`: a session is running (R19). -/
def busy (s : State) : Bool :=
  match s.fsm with
  | .idle => false
  | .header => true
  | .dispatch => true
  | .validate => true
  | .done => false
  | .error => false

/-- The status ports are functions of the registers (R19). -/
def statusPorts (s : State) : StatusPorts where
  busy := busy s
  done := decide (s.fsm = .done)
  error := decide (s.fsm = .error)
  err_code := s.errCode
  hdr_width := s.width
  hdr_height := s.height
  hdr_channels := s.channels
  hdr_colorspace := s.colorspace
  pix_count := s.pixCount
  pc := s.pc

/-- One pixel on the pixel port (R19). -/
structure PixelBeat where
  px_index : Nat
  px_r : Byte
  px_g : Byte
  px_b : Byte
  px_a : Byte
  deriving DecidableEq, Repr

/-- What the pixel port shows during `Push(p)`: the index before the push and the pixel with its effective alpha (R19, R73). -/
def pixelBeat (p : Pixel) (s : State) : PixelBeat :=
  let q := effective s.channels p
  ⟨s.pixCount, q.r, q.g, q.b, q.a⟩

/-- How many components an element of `OUT` has (R17). -/
def components : OutPixel → Nat
  | .rgb _ _ _ => 3
  | .rgba _ _ _ _ => 4

/-- `OUT` as rows of `w` pixels, row 0 first (R32, R81). -/
def gridRows (w : Nat) (out : List OutPixel) : Nat → List (List OutPixel)
  | 0 => []
  | h + 1 => out.take w :: gridRows w (out.drop w) h

/-- The observable result of a session (R83). -/
structure Image where
  width : Word32
  height : Word32
  channels : BitVec 3
  colorspace : BitVec 1
  grid : List (List OutPixel)
  deriving DecidableEq, Repr

/-- The result, only when the session ended in DONE: in every other state `OUT` is no image, and in ERROR it is void (R17,
R94, R105). -/
def result (s : State) : Option Image :=
  if s.fsm = .done then
    some ⟨s.width, s.height, s.channels, s.colorspace, gridRows s.width.toNat s.out s.height.toNat⟩
  else none

end Sys2Proof.Machine
end

