-- ==== Sys2Proof/Machine/Environment.lean ====
section
/-! DEFINITION. What the host does to the machine between two steps (R19, R36, R100). -/

namespace Sys2Proof.Machine

/-- An action of the host. -/
inductive HostAction where
  /-- Drive the input pins. -/
  | drive (pins : Pins)
  /-- Put one byte into the input buffer. -/
  | putByte (addr : Nat) (v : Byte)
  /-- Put a file into the input buffer, its trailing end marker left out, and drive `len` accordingly (R36, R100 (1)). A file
  shorter than the marker is presented as the empty stream (DESIGN CHOICE, log 12). -/
  | presentFile (file : List Byte)
  deriving DecidableEq, Repr

/-- The length the `len` port can carry: `0 ≤ LEN ≤ 2^AW − 1` (R5, U11). -/
def lenFits (n : Nat) : Bool := decide (n < 2 ^ Config.addressWidth)

/-- The stream of a file: its bytes less the trailing end marker (R36, D12). DESIGN CHOICE, unsafe (log 12): of a file shorter than
`TRAILER_LEN`, of which the spec says nothing, it is the empty stream, so its `len` is 0. -/
def streamOfFile (file : List Byte) : List Byte := file.take (file.length - Config.trailerLen)

/-- Whether a byte of the buffer belongs to the running session (R23). -/
def inSession (s : State) (addr : Nat) : Bool := busy s && decide (addr < s.len)

/-- Whether driving the pins changes `len` while a session runs (R35). -/
def changesLenInSession (s : State) (p : Pins) : Bool := busy s && p.len != s.pins.len

/-- The effect of a host action, or why the spec gives it none: a `len` the port cannot carry (U11) and a change of `IN` or of
`len` during a session (U7, R35). `rst` and `start` may be driven at any time (R98, R106). -/
def hostAct (a : HostAction) (s : State) : Result :=
  match a with
  | .drive p =>
    if !lenFits p.len then .refused .lenTooWide
    else if changesLenInSession s p then .refused .lenChangedInSession
    else .next { s with pins := p }
  | .putByte addr v =>
    if inSession s addr && Memory.read s.input addr != v then .refused .inputChangedInSession
    else .next { s with input := Memory.write s.input addr v }
  | .presentFile file =>
    if busy s then .refused .inputChangedInSession
    else if lenFits (streamOfFile file).length then
      .next { s with
        input := Memory.writeBytes s.input 0 (streamOfFile file)
        pins := { s.pins with len := (streamOfFile file).length } }
    else .refused .lenTooWide

end Sys2Proof.Machine
end

