-- ==== Sys2Proof/Machine/Stream.lean ====
section
/-! DEFINITION. HDR and the opcode step as R51 and R59 write them, reading the stream byte by byte with the cursor reads and without
a decoded unit: the reference that decode, fetch and exec together are compared with. -/

namespace Sys2Proof.Machine

/-- `ReadAscii(n)`'s one use, the magic, as the comparison of four bytes (R27, D21): `71 6F 69 66`. -/
def magicBytes : List Byte := [0x71, 0x6F, 0x69, 0x66]

/-- The pseudocode of R51. -/
def streamHdr (s : State) : Result :=
  match readBytes 4 s with
  | none => raise .unexpectedEndOfInput s
  | some (m, s) =>
  if m ≠ magicBytes then raise .invalidMagic s else
  match readU32BE s with
  | none => raise .unexpectedEndOfInput s
  | some (w, s) =>
  match readU32BE s with
  | none => raise .unexpectedEndOfInput s
  | some (h, s) =>
  match readByte s with
  | none => raise .unexpectedEndOfInput s
  | some (c, s) =>
  if c ≠ 3 ∧ c ≠ 4 then raise .invalidChannelCount s else
  match readByte s with
  | none => raise .unexpectedEndOfInput s
  | some (cs, s) =>
  if cs ≠ 0 ∧ cs ≠ 1 then raise .invalidColorSpace s else
  .next { s with
    width := w
    height := h
    channels := c.setWidth 3
    colorspace := cs.setWidth 1
    fsm := .dispatch }

/-- The pseudocode of R64, after the tag. -/
def streamRgb (s : State) : Result :=
  match readBytes 3 s with
  | some ([r, g, b], s) => .next (push ⟨r, g, b, s.prev.a⟩ s)
  | _ => raise .unexpectedEndOfInput s

/-- The pseudocode of R65, after the tag. -/
def streamRgba (s : State) : Result :=
  match readBytes 4 s with
  | some ([r, g, b, a], s) => .next (push ⟨r, g, b, a⟩ (markMalformed s))
  | _ => raise .unexpectedEndOfInput s

/-- The pseudocode of R68, after the tag. -/
def streamLuma (fg : BitVec 6) (s : State) : Result :=
  match readByte s with
  | some (b2, s) =>
    let dg := lumaGreen fg
    let dr := dg + lumaOffset (b2.extractLsb' 4 4)
    let db := dg + lumaOffset (b2.extractLsb' 0 4)
    .next (push (addDeltas s.prev dr dg db) s)
  | none => raise .unexpectedEndOfInput s

/-- The opcode step of R59: one tag byte, then the rule it selects. -/
def streamOpcode (s : State) : Result :=
  match readByte s with
  | none => raise .unexpectedEndOfInput s
  | some (tag, s) =>
    match dispatch tag with
    | .rgb => streamRgb s
    | .rgba => streamRgba s
    | .index idx => .next (push (readCache s.cache idx) s)
    | .diff fr fg fb => .next (push (addDeltas s.prev (diffDelta fr) (diffDelta fg) (diffDelta fb)) s)
    | .luma fg => streamLuma fg s
    | .run n => .next (pushN (runCount n) s.prev s)
    | .unknown => raise .corruptStream s

end Sys2Proof.Machine
end

