-- ==== Sys2Proof/Safety.lean ====
section
/-! DEFINITION. What a safe run is, in the terms claims use: the invariant of a state, what the output sequence determines, and the
relations between two states that claims about a push, a frame and a session speak of. -/

namespace Sys2Proof.Machine

/-! ### What `OUT` determines (R33, R75) -/

/-- An element of `OUT` with its effective alpha: what was written to `prev` and to a cache slot (R71, R73). -/
def fullPixel : OutPixel → Pixel
  | .rgb r g b => ⟨r, g, b, 255⟩
  | .rgba r g b a => ⟨r, g, b, a⟩

/-- The pixel of the most recent push, or the start value if there has been none (R33 (d)). -/
def lastPixel (out : List OutPixel) : Pixel :=
  match out.getLast? with
  | none => startPrev
  | some p => fullPixel p

/-- One push's cache write. -/
def cachePush (cache : Vector Pixel 64) (p : OutPixel) : Vector Pixel 64 :=
  writeCache cache (slotIndex (fullPixel p)) (fullPixel p)

/-- The cache after the pushes of `out`, in order, from the start of the session (R33 (c), R75). -/
def replayCache (out : List OutPixel) : Vector Pixel 64 := out.foldl cachePush emptyCache

/-- The most recent pushed pixel with a given slot index, if any (R75). -/
def latestWithIndex (idx : BitVec 6) (out : List OutPixel) : Option Pixel :=
  (out.map fullPixel).reverse.find? fun q => decide (slotIndex q = idx)

/-! ### The invariant -/

/-- A parsed header's channel count (R12). -/
def legalChannels (c : BitVec 3) : Prop := c = 3 ∨ c = 4

/-- What holds in every state a machine can reach from reset, whatever its host does (`hostAct`). -/
structure Inv (s : State) : Prop where
  /-- the input buffer is in canonical form -/
  input_wf : s.input.wf = true
  /-- the cursor never passes `LEN` (R10) -/
  pc_le : s.pc ≤ s.len
  /-- `pix_count` is the length of `OUT` (R13) -/
  count : s.pixCount = s.out.length
  /-- `err_code ≠ 0` exactly in ERROR (R14) -/
  err_iff : s.errCode ≠ 0 ↔ s.fsm = .error
  /-- codes 8 to 15 are never held (R14) -/
  err_le : s.errCode.toNat ≤ 7
  /-- before the header is parsed the cursor is at 0 and no header is held (R12, R21) -/
  fresh : s.fsm = .idle ∨ s.fsm = .header → s.pc = 0 ∧ s.channels = 0
  /-- the loop runs only after a good header (R12, R57) -/
  parsed : s.fsm = .dispatch ∨ s.fsm = .validate ∨ s.fsm = .done → legalChannels s.channels ∧ 14 ≤ s.pc
  /-- no other channel count is ever held (R12) -/
  channels_legal : s.channels = 0 ∨ legalChannels s.channels
  /-- without a parsed header the session has produced nothing (R12, R21, R57) -/
  unparsed : s.channels = 0 →
    s.width = 0 ∧ s.height = 0 ∧ s.colorspace = 0 ∧ s.out = [] ∧ s.malformed = false
  /-- VALIDATE and DONE are reached only with the input exhausted (R58, R83) -/
  exhausted : s.fsm = .validate ∨ s.fsm = .done → s.pc = s.len
  /-- every element of `OUT` has `channels` components (R17) -/
  shape : ∀ p ∈ s.out, components p = s.channels.toNat
  /-- at most 62 pixels a byte (R13) -/
  bound : s.pixCount ≤ 62 * (s.pc - 14)
  /-- the flag is raised only in three-channel sessions (R15) -/
  flag : s.malformed = true → s.channels = 3
  /-- what DONE says (R83) -/
  complete : s.fsm = .done → s.pixCount = expectedPixels s ∧ 0 < s.pixCount ∧ s.malformed = false
  /-- `prev` is the last pixel pushed (R33 (d)) -/
  prev_eq : s.prev = lastPixel s.out
  /-- the cache is what the pushes made it (R33 (c), R75) -/
  cache_eq : s.cache = replayCache s.out

/-- `LEN` and the `len` port hold what `aw` bits can (R5, U11): the part of the invariant that speaks of the width. -/
def LengthsFit (aw : Nat) (s : State) : Prop := s.len < 2 ^ aw ∧ s.pins.len < 2 ^ aw

/-! ### Relations between two states -/

/-- Nothing but the pixel registers, the cursor and the flag changed: the frame of an opcode that completes. -/
structure Kept (s t : State) : Prop where
  fsm : t.fsm = s.fsm
  width : t.width = s.width
  height : t.height = s.height
  channels : t.channels = s.channels
  colorspace : t.colorspace = s.colorspace
  errCode : t.errCode = s.errCode
  len : t.len = s.len
  pins : t.pins = s.pins
  input : ∀ a, t.input.read a = s.input.read a

/-- `count` pushes of the pixel `p`, spelt out as R71, R72 and R73 word them: the elements appended to `OUT`, the counter, the
previous pixel, and the one slot written. -/
structure Pushed (count : Nat) (p : Pixel) (s t : State) : Prop where
  out : t.out = s.out ++ List.replicate count
    (if s.channels = 4 then .rgba p.r p.g p.b p.a else .rgb p.r p.g p.b)
  pixCount : t.pixCount = s.pixCount + count
  prev : t.prev = ⟨p.r, p.g, p.b, if s.channels = 4 then p.a else 255⟩
  cache : ∀ idx : BitVec 6, readCache t.cache idx =
    if idx.toNat = (t.prev.r.toNat * 3 + t.prev.g.toNat * 5 + t.prev.b.toNat * 7 + t.prev.a.toNat * 11) % 64
    then t.prev else readCache s.cache idx

/-- The pixel registers and the flag are as they were. -/
structure PixelsKept (s t : State) : Prop where
  out : t.out = s.out
  pixCount : t.pixCount = s.pixCount
  prev : t.prev = s.prev
  cache : t.cache = s.cache
  malformed : t.malformed = s.malformed

/-- `t` is `s` after a raised error of a given code with the cursor at `pc`: nothing else changed (R94). -/
def RaisedAt (code : BitVec 4) (pc : Nat) (s t : State) : Prop :=
  t = { s with fsm := .error, errCode := code, pc := pc }

/-- The registers hold the values that reset and START give alike (R21). -/
structure StartValues (t : State) : Prop where
  pc : t.pc = 0
  width : t.width = 0
  height : t.height = 0
  channels : t.channels = 0
  colorspace : t.colorspace = 0
  prev : t.prev = ⟨0, 0, 0, 255⟩
  cache : ∀ idx : BitVec 6, readCache t.cache idx = ⟨0, 0, 0, 0⟩
  pixCount : t.pixCount = 0
  malformed : t.malformed = false
  errCode : t.errCode = 0
  out : t.out = []

/-- Two machines in the same state whose buffers agree on `IN[0..LEN−1]` (R101). -/
def SameStream (s t : State) : Prop :=
  t = { s with input := t.input } ∧ ∀ a, a < s.len → t.input.read a = s.input.read a

/-- Two outcomes that are the same but for bytes outside the session's stream. -/
def SameOutcome : Result → Result → Prop
  | .next s, .next t => SameStream s t
  | .fault e, .fault e' => e = e'
  | .refused e, .refused e' => e = e'
  | _, _ => False

/-- The session has ended (R101). -/
def ended (s : State) : Prop := s.fsm = .done ∨ s.fsm = .error

/-- No session is running: the states in which START can be taken (R99). -/
def quiescent (s : State) : Prop := s.fsm = .idle ∨ s.fsm = .done ∨ s.fsm = .error

end Sys2Proof.Machine
end

