-- ==== Sys2Proof/Certificates/Slice0/Obligations.lean ====
section
/-! DEFINITION. The statements for the provers, each from the numbered rules of spec/ that its docstring names. -/

open Sys2Proof Sys2Proof.Machine

/-! ### Encoding -/

/-- R39, R47: every tag selects one opcode, with the fields of the tag map. -/
def Obligations.DispatchFollowsTagMap : Prop :=
  ∀ tag : Byte,
    (tag.toNat ≤ 0x3F → ∃ idx, dispatch tag = .index idx ∧ idx.toNat = tag.toNat) ∧
    (0x40 ≤ tag.toNat ∧ tag.toNat ≤ 0x7F → ∃ fr fg fb, dispatch tag = .diff fr fg fb ∧
      tag.toNat = 0x40 + fr.toNat * 16 + fg.toNat * 4 + fb.toNat) ∧
    (0x80 ≤ tag.toNat ∧ tag.toNat ≤ 0xBF → ∃ fg, dispatch tag = .luma fg ∧ fg.toNat = tag.toNat - 0x80) ∧
    (0xC0 ≤ tag.toNat ∧ tag.toNat ≤ 0xFD → ∃ n, dispatch tag = .run n ∧ n.toNat = tag.toNat - 0xC0 ∧ n.toNat ≤ 61) ∧
    (tag.toNat = 0xFE → dispatch tag = .rgb) ∧
    (tag.toNat = 0xFF → dispatch tag = .rgba)

/-- R39 to R45: decoding an encoded opcode gives it back, whatever follows it; every operand at every legal value. -/
def Obligations.DecodeInvertsEncodeForOpcodes : Prop :=
  ∀ (i : Instr) (rest : List Byte), i.isHeader = false → i.wellFormed = true →
    decodeOpcode (encode i ++ rest) = .ok (i, rest)

/-- R38: decoding an encoded header gives it back, whatever follows it and whatever its fields are. That a header with a wrong
magic, channel or colour-space byte is decoded at all is the model's choice (DESIGN CHOICE, log 9). -/
def Obligations.DecodeInvertsEncodeForHeaders : Prop :=
  ∀ (i : Instr) (rest : List Byte), i.isHeader = true → decodeHeader (encode i ++ rest) = .ok (i, rest)

/-- R37, R38, R47: each word has one meaning: what was decoded encodes to the bytes it was decoded from, and an opcode
decoded by its tag is legal and no header. -/
def Obligations.EncodeInvertsDecode : Prop :=
  ∀ (bs : List Byte) (i : Instr) (rest : List Byte),
    (decodeOpcode bs = .ok (i, rest) → i.isHeader = false ∧ i.wellFormed = true ∧ encode i ++ rest = bs) ∧
    (decodeHeader bs = .ok (i, rest) → i.isHeader = true ∧ encode i ++ rest = bs)

/-- R49: the length of a unit after the header is a function of its tag alone; with that many bytes it decodes and with
fewer it is truncated. -/
def Obligations.UnitLengthIsAFunctionOfTheTag : Prop :=
  ∀ (tag : Byte) (bs : List Byte),
    let n := if tag = 0xFE then 4 else if tag = 0xFF then 5 else if tag.extractLsb' 6 2 = 2 then 2 else 1
    (n ≤ (tag :: bs).length → ∃ i, decodeOpcode (tag :: bs) = .ok (i, (tag :: bs).drop n) ∧ unitLength i = n) ∧
    ((tag :: bs).length < n → decodeOpcode (tag :: bs) = .error .truncated)

/-- R38 to R45: words written out from the layouts decode to the units they stand for (a few words, for sanity). -/
def Obligations.WrittenOutWordsDecode : Prop :=
  decodeOpcode [0b11111110, 0x0A, 0x14, 0x1E] = .ok (.rgb 10 20 30, []) ∧
  decodeOpcode [0b11111111, 1, 2, 3, 4] = .ok (.rgba 1 2 3 4, []) ∧
  decodeOpcode [0b00001001] = .ok (.index 9, []) ∧
  decodeOpcode [0b01110010] = .ok (.diff 3 0 2, []) ∧
  decodeOpcode [0b10100101, 0b01011111] = .ok (.luma 37 5 15, []) ∧
  decodeOpcode [0b11111101] = .ok (.run 61, []) ∧
  decodeHeader [0x71, 0x6F, 0x69, 0x66, 0, 0, 0, 3, 0, 0, 0, 2, 3, 1] = .ok (.hdr 0x716F6966 3 2 3 1, [])

/-! ### A step runs the unit at the cursor -/

/-- R37, R59: when the bytes of `IN[pc..LEN−1]` begin with an opcode, the step is that opcode's meaning. -/
def Obligations.StepRunsTheDecodedOpcode : Prop :=
  ∀ (s : State) (i : Instr) (rest : List Byte),
    s.pins.rst = false → s.fsm = .dispatch → s.pc < s.len →
    decodeOpcode (memRead s.input s.pc (s.len - s.pc)) = .ok (i, rest) → step s = exec i s

/-- R37, R51: when `IN` holds a whole header, the step from HEADER is its meaning, legal or not. -/
def Obligations.StepRunsTheDecodedHeader : Prop :=
  ∀ (s : State) (i : Instr) (rest : List Byte),
    s.pins.rst = false → s.fsm = .header → s.pc = 0 →
    decodeHeader (memRead s.input 0 s.len) = .ok (i, rest) → step s = exec i s

/-- R51: the step from HEADER, through fetch, decode and exec, is the pseudocode of R51 on the stream, whatever bytes are
there and however many. -/
def Obligations.HeaderStepIsTheStreamPseudocode : Prop :=
  ∀ s : State, s.pins.rst = false → s.fsm = .header → s.pc = 0 → step s = streamHdr s

/-- R59, R64 to R70: the opcode step, through fetch, decode and exec, is the pseudocode of R59 on the stream, whatever
bytes are there and however many. -/
def Obligations.OpcodeStepIsTheStreamPseudocode : Prop :=
  ∀ s : State, s.pins.rst = false → s.fsm = .dispatch → s.pc < s.len → step s = streamOpcode s

/-- The model's own harness (log 10): the unit of a table word, placed in any machine with a canonical buffer, is what
the very next step runs. -/
def Obligations.PlacedTableWordRunsNext : Prop :=
  ∀ (s : State) (nbits w : Nat) (i : Instr), s.input.wf = true → decodeTableWord nbits w = some i →
    step (s.withFetchWord nbits w) = exec i (s.withFetchWord nbits w)

/-- R24, R25, R26: a cursor read is all or nothing, answers the bytes in address order and moves only the cursor;
`ReadU32BE` is big-endian. -/
def Obligations.CursorReadsAreAllOrNothing : Prop :=
  ∀ (s : State) (n : Nat), 1 ≤ n →
    (s.len - s.pc < n → readBytes n s = none) ∧
    (n ≤ s.len - s.pc → ∃ l, readBytes n s = some (l, { s with pc := s.pc + n }) ∧ l.length = n ∧
      ∀ k, k < n → l[k]? = some (s.input.read (s.pc + k))) ∧
    (1 ≤ s.len - s.pc → readByte s = some (s.input.read s.pc, { s with pc := s.pc + 1 })) ∧
    (s.len - s.pc < 1 → readByte s = none) ∧
    (4 ≤ s.len - s.pc → ∃ v, readU32BE s = some (v, { s with pc := s.pc + 4 }) ∧
      v.toNat = (s.input.read s.pc).toNat * 2 ^ 24 + (s.input.read (s.pc + 1)).toNat * 2 ^ 16 +
        (s.input.read (s.pc + 2)).toNat * 2 ^ 8 + (s.input.read (s.pc + 3)).toNat) ∧
    (s.len - s.pc < 4 → readU32BE s = none)

/-! ### What each unit does -/

/-- R51, R57: a legal header with its fourteen bytes before `LEN` completes: the header registers are written, the cursor
is past it, the loop is entered, and nothing else changes. -/
def Obligations.HdrWritesTheHeaderRegisters : Prop :=
  ∀ (m w h : Word32) (c cs : Byte) (s : State),
    (Instr.hdr m w h c cs).wellFormed = true → s.pc + 14 ≤ s.len →
    ∃ t, exec (.hdr m w h c cs) s = .next t ∧
      t.width = w ∧ t.height = h ∧ t.channels.toNat = c.toNat ∧ t.colorspace.toNat = cs.toNat ∧
      t.fsm = .dispatch ∧ t.pc = s.pc + 14 ∧ PixelsKept s t ∧ t.errCode = s.errCode ∧ t.len = s.len ∧
      t.pins = s.pins ∧ ∀ a, t.input.read a = s.input.read a

/-- R57 with R26, R31: from the start values, a legal header in `IN[0..13]` is parsed into the registers, big-endian, and the
loop begins with nothing produced. -/
def Obligations.HeaderStepFromStartValues : Prop :=
  ∀ s : State, s.pins.rst = false → s.fsm = .header → StartValues s → 14 ≤ s.len →
    memRead s.input 0 4 = [0x71, 0x6F, 0x69, 0x66] →
    s.input.read 12 = 3 ∨ s.input.read 12 = 4 → s.input.read 13 = 0 ∨ s.input.read 13 = 1 →
    ∃ t, step s = .next t ∧ t.fsm = .dispatch ∧ t.pc = 14 ∧
      t.width.toNat = (s.input.read 4).toNat * 2 ^ 24 + (s.input.read 5).toNat * 2 ^ 16 +
        (s.input.read 6).toNat * 2 ^ 8 + (s.input.read 7).toNat ∧
      t.height.toNat = (s.input.read 8).toNat * 2 ^ 24 + (s.input.read 9).toNat * 2 ^ 16 +
        (s.input.read 10).toNat * 2 ^ 8 + (s.input.read 11).toNat ∧
      t.channels.toNat = (s.input.read 12).toNat ∧ t.colorspace.toNat = (s.input.read 13).toNat ∧
      t.prev = ⟨0, 0, 0, 255⟩ ∧ (∀ idx, readCache t.cache idx = ⟨0, 0, 0, 0⟩) ∧ t.pixCount = 0 ∧
      t.malformed = false ∧ t.out = [] ∧ t.errCode = 0 ∧ t.len = s.len

/-- R64: RGB pushes its three operand bytes with the previous pixel's alpha; cut short, it pushes nothing. -/
def Obligations.RgbPushesWithPreviousAlpha : Prop :=
  ∀ (r g b : Byte) (s : State),
    (s.pc + 4 ≤ s.len → ∃ t, exec (.rgb r g b) s = .next t ∧ Pushed 1 ⟨r, g, b, s.prev.a⟩ s t ∧ Kept s t ∧
      t.pc = s.pc + 4 ∧ t.malformed = s.malformed) ∧
    (s.pc < s.len ∧ s.len < s.pc + 4 → ∃ t, exec (.rgb r g b) s = .next t ∧ RaisedAt 1 (s.pc + 1) s t)

/-- R65: RGBA pushes its four operand bytes, and sets the flag when `channels = 3`; cut short, it pushes nothing and leaves
the flag. -/
def Obligations.RgbaPushesAndFlagsThreeChannels : Prop :=
  ∀ (r g b a : Byte) (s : State),
    (s.pc + 5 ≤ s.len → ∃ t, exec (.rgba r g b a) s = .next t ∧ Pushed 1 ⟨r, g, b, a⟩ s t ∧ Kept s t ∧
      t.pc = s.pc + 5 ∧ (s.channels = 3 → t.malformed = true) ∧ (s.channels ≠ 3 → t.malformed = s.malformed)) ∧
    (s.pc < s.len ∧ s.len < s.pc + 5 → ∃ t, exec (.rgba r g b a) s = .next t ∧ RaisedAt 1 (s.pc + 1) s t)

/-- R66: INDEX pushes what its slot held before the step. -/
def Obligations.IndexPushesItsSlot : Prop :=
  ∀ (idx : BitVec 6) (s : State), s.pc + 1 ≤ s.len →
    ∃ t, exec (.index idx) s = .next t ∧ Pushed 1 (readCache s.cache idx) s t ∧ Kept s t ∧ t.pc = s.pc + 1 ∧
      t.malformed = s.malformed

/-- R67: DIFF adds `field − 2` to each channel mod 256, alpha unchanged. -/
def Obligations.DiffAddsBiasedFieldsModulo256 : Prop :=
  ∀ (fr fg fb : BitVec 2) (s : State), s.pc + 1 ≤ s.len →
    ∃ (t : State) (r g b : Byte), exec (.diff fr fg fb) s = .next t ∧
      (r.toNat : Int) = ((s.prev.r.toNat : Int) + ((fr.toNat : Int) - 2)) % 256 ∧
      (g.toNat : Int) = ((s.prev.g.toNat : Int) + ((fg.toNat : Int) - 2)) % 256 ∧
      (b.toNat : Int) = ((s.prev.b.toNat : Int) + ((fb.toNat : Int) - 2)) % 256 ∧
      Pushed 1 ⟨r, g, b, s.prev.a⟩ s t ∧ Kept s t ∧ t.pc = s.pc + 1 ∧ t.malformed = s.malformed

/-- R68: LUMA adds `dg = fg − 32` to green and `dg + (offset − 8)` to red and blue, mod 256, alpha unchanged; cut short, it
pushes nothing. -/
def Obligations.LumaAddsGreenRelativeDeltasModulo256 : Prop :=
  ∀ (fg : BitVec 6) (fro fbo : BitVec 4) (s : State),
    (s.pc + 2 ≤ s.len → ∃ (t : State) (r g b : Byte), exec (.luma fg fro fbo) s = .next t ∧
      (r.toNat : Int) = ((s.prev.r.toNat : Int) + (((fg.toNat : Int) - 32) + ((fro.toNat : Int) - 8))) % 256 ∧
      (g.toNat : Int) = ((s.prev.g.toNat : Int) + ((fg.toNat : Int) - 32)) % 256 ∧
      (b.toNat : Int) = ((s.prev.b.toNat : Int) + (((fg.toNat : Int) - 32) + ((fbo.toNat : Int) - 8))) % 256 ∧
      Pushed 1 ⟨r, g, b, s.prev.a⟩ s t ∧ Kept s t ∧ t.pc = s.pc + 2 ∧ t.malformed = s.malformed) ∧
    (s.pc < s.len ∧ s.len < s.pc + 2 → ∃ t, exec (.luma fg fro fbo) s = .next t ∧ RaisedAt 1 (s.pc + 1) s t)

/-- R70: RUN pushes the previous pixel `n + 1` times, 1 to 62, without regard to the expected count. -/
def Obligations.RunRepeatsThePreviousPixel : Prop :=
  ∀ (n : BitVec 6) (s : State), n.toNat ≤ 61 → s.pc + 1 ≤ s.len →
    ∃ t, exec (.run n) s = .next t ∧ Pushed (n.toNat + 1) s.prev s t ∧ Kept s t ∧ t.pc = s.pc + 1 ∧
      t.malformed = s.malformed

/-- R71, R72, R73: the push rule: the element appended, the counter, `prev` and the one slot written, with the effective
alpha; and the pixel port shows the same pixel with the index before the push. -/
def Obligations.PushAppendsSetsPrevAndWritesOneSlot : Prop :=
  ∀ (p : Pixel) (s : State),
    Pushed 1 p s (push p s) ∧ Kept s (push p s) ∧ (push p s).pc = s.pc ∧ (push p s).malformed = s.malformed ∧
    pixelBeat p s = ⟨s.pixCount, p.r, p.g, p.b, if s.channels = 4 then p.a else 255⟩

/-- R76 (the spec's own derivation): only the low six bits of each channel matter, and a six-bit adder tree that drops its
carries gives the hash. -/
def Obligations.HashIsSixBitArithmetic : Prop :=
  ∀ p : Pixel, slotIndex p =
    p.r.extractLsb' 0 6 * 3 + p.g.extractLsb' 0 6 * 5 + p.b.extractLsb' 0 6 * 7 + p.a.extractLsb' 0 6 * 11

/-- R102: after any opcode, with nothing between the two units, an INDEX of the very slot it wrote emits the pixel it pushed
again, and any other INDEX sees the cache as that opcode left it. -/
def Obligations.IndexSeesThePrecedingPush : Prop :=
  ∀ (i : Instr) (s : State), i.isHeader = false → s.pc + unitLength i + 1 ≤ s.len →
    ∃ t p, exec i s = .next t ∧ t.out.getLast? = some p ∧
      (∃ u, exec (.index (slotIndex t.prev)) t = .next u ∧ u.out = t.out ++ [p] ∧ u.prev = t.prev ∧
        u.cache = t.cache) ∧
      ∀ idx, ∃ u, exec (.index idx) t = .next u ∧ Pushed 1 (readCache t.cache idx) t u

/-- R66 (a), (b), R103: the push after an INDEX of a never-written slot is a real write, to slot 0 or 53, whatever that slot
held. -/
def Obligations.IndexOfUnwrittenSlotWritesTheZeroPixelsSlot : Prop :=
  ∀ (idx : BitVec 6) (s : State), s.pc + 1 ≤ s.len → readCache s.cache idx = ⟨0, 0, 0, 0⟩ →
    ∃ t, exec (.index idx) s = .next t ∧
      (s.channels = 4 → t.out = s.out ++ [.rgba 0 0 0 0] ∧ t.prev = ⟨0, 0, 0, 0⟩ ∧
        ∀ j, readCache t.cache j = if j = 0 then ⟨0, 0, 0, 0⟩ else readCache s.cache j) ∧
      (s.channels = 3 → t.out = s.out ++ [.rgb 0 0 0] ∧ t.prev = ⟨0, 0, 0, 255⟩ ∧
        ∀ j, readCache t.cache j = if j = 53 then ⟨0, 0, 0, 255⟩ else readCache s.cache j)

/-- R70 (a), (b), R104: a RUN after a pixel leaves `prev` and the cache as they are; a RUN before any pixel writes the start
value to slot 53. -/
def Obligations.RunChangesTheCacheOnlyBeforeAnyPixel : Prop :=
  ∀ (n : BitVec 6) (s : State), Inv s → s.fsm = .dispatch → s.pc < s.len → n.toNat ≤ 61 →
    ∃ t, exec (.run n) s = .next t ∧ t.prev = s.prev ∧
      (s.out ≠ [] → t.cache = s.cache) ∧
      (s.out = [] → ∀ j, readCache t.cache j = if j = 53 then ⟨0, 0, 0, 255⟩ else ⟨0, 0, 0, 0⟩)

/-! ### Errors -/

/-- R52 to R56, R86 to R88: the header's reads and checks in address order: the first violation is the one raised, with the
cursor where the successful reads left it and nothing else changed. -/
def Obligations.HeaderErrorsInAddressOrder : Prop :=
  ∀ s : State, s.pins.rst = false → s.fsm = .header → s.pc = 0 →
    (s.len < 4 → ∃ t, step s = .next t ∧ RaisedAt 1 0 s t) ∧
    (4 ≤ s.len ∧ memRead s.input 0 4 ≠ [0x71, 0x6F, 0x69, 0x66] → ∃ t, step s = .next t ∧ RaisedAt 2 4 s t) ∧
    (memRead s.input 0 4 = [0x71, 0x6F, 0x69, 0x66] →
      (4 ≤ s.len ∧ s.len < 8 → ∃ t, step s = .next t ∧ RaisedAt 1 4 s t) ∧
      (8 ≤ s.len ∧ s.len < 12 → ∃ t, step s = .next t ∧ RaisedAt 1 8 s t) ∧
      (s.len = 12 → ∃ t, step s = .next t ∧ RaisedAt 1 12 s t) ∧
      (13 ≤ s.len ∧ s.input.read 12 ≠ 3 ∧ s.input.read 12 ≠ 4 → ∃ t, step s = .next t ∧ RaisedAt 3 13 s t) ∧
      (s.input.read 12 = 3 ∨ s.input.read 12 = 4 →
        (s.len = 13 → ∃ t, step s = .next t ∧ RaisedAt 1 13 s t) ∧
        (14 ≤ s.len ∧ s.input.read 13 ≠ 0 ∧ s.input.read 13 ≠ 1 → ∃ t, step s = .next t ∧ RaisedAt 4 14 s t)))

/-- R62, R85: an opcode cut short by the end of the buffer raises `UnexpectedEndOfInput` with the cursor past its tag and
nothing pushed; an opcode that is whole stays in the loop. -/
def Obligations.OpcodeCutShortRaisesPastItsTag : Prop :=
  ∀ s : State, s.pins.rst = false → s.fsm = .dispatch → s.pc < s.len →
    let tag := s.input.read s.pc
    let n := if tag = 0xFE then 4 else if tag = 0xFF then 5 else if tag.extractLsb' 6 2 = 2 then 2 else 1
    (s.len < s.pc + n → ∃ t, step s = .next t ∧ RaisedAt 1 (s.pc + 1) s t) ∧
    (s.pc + n ≤ s.len → ∃ t, step s = .next t ∧ t.fsm = .dispatch ∧ t.pc = s.pc + n ∧ s.pixCount < t.pixCount)

/-- R84, R85 to R91: which error is entered from which state, with which cursor, and for which cause: for code 1 the read that
found too few bytes, for codes 2, 3 and 4 the bytes that were read, for codes 6 and 7 the registers VALIDATE checks. -/
def Obligations.ErrorsFollowTheCauseTable : Prop :=
  ∀ s t : State, Inv s → step s = .next t → s.fsm ≠ .error → t.fsm = .error →
    (t.errCode = 1 ∧ s.fsm = .header ∧
      (t.pc = 0 ∧ s.len < 4 ∨ t.pc = 4 ∧ 4 ≤ s.len ∧ s.len < 8 ∨ t.pc = 8 ∧ 8 ≤ s.len ∧ s.len < 12 ∨
        t.pc = 12 ∧ s.len = 12 ∨ t.pc = 13 ∧ s.len = 13)) ∨
    (t.errCode = 1 ∧ s.fsm = .dispatch ∧ s.pc < s.len ∧ t.pc = s.pc + 1 ∧
      (s.input.read s.pc = 0xFE ∧ s.len < s.pc + 4 ∨ s.input.read s.pc = 0xFF ∧ s.len < s.pc + 5 ∨
        (s.input.read s.pc).extractLsb' 6 2 = 2 ∧ s.len < s.pc + 2)) ∨
    (t.errCode = 2 ∧ s.fsm = .header ∧ t.pc = 4 ∧ 4 ≤ s.len ∧ memRead s.input 0 4 ≠ [0x71, 0x6F, 0x69, 0x66]) ∨
    (t.errCode = 3 ∧ s.fsm = .header ∧ t.pc = 13 ∧ 13 ≤ s.len ∧ s.input.read 12 ≠ 3 ∧ s.input.read 12 ≠ 4) ∨
    (t.errCode = 4 ∧ s.fsm = .header ∧ t.pc = 14 ∧ 14 ≤ s.len ∧ s.input.read 13 ≠ 0 ∧ s.input.read 13 ≠ 1) ∨
    (t.errCode = 6 ∧ s.fsm = .validate ∧ t.pc = s.len ∧
      (s.width.toNat * s.height.toNat = 0 ∨ s.pixCount ≠ s.width.toNat * s.height.toNat)) ∨
    (t.errCode = 7 ∧ s.fsm = .validate ∧ t.pc = s.len ∧ s.malformed = true ∧
      s.pixCount = s.width.toNat * s.height.toNat)

/-- R94: entering ERROR writes `fsm`, `err_code` and, by the reads of the step that succeeded, `pc`; every other register, the
cache and `OUT` keep their values. -/
def Obligations.ErrorEntryKeepsAllElse : Prop :=
  ∀ s t : State, step s = .next t → s.fsm ≠ .error → t.fsm = .error →
    t.errCode ≠ 0 ∧ RaisedAt t.errCode t.pc s t ∧ s.pc ≤ t.pc

/-- R60, R89: `CorruptStream` is raised by no input: no step sets its code. -/
def Obligations.CorruptStreamIsNeverRaised : Prop :=
  ∀ s t : State, step s = .next t → s.errCode ≠ 5 → t.errCode ≠ 5

/-! ### The loop and VALIDATE -/

/-- R58: at the top of the loop the input is exhausted exactly when `pc = LEN`: then `fsm` becomes VALIDATE and nothing else
changes, whatever `pix_count` is; before that the loop is not left but by an error. -/
def Obligations.LoopEndsExactlyAtExhaustion : Prop :=
  ∀ s : State, s.pins.rst = false → s.fsm = .dispatch →
    (s.pc = s.len → step s = .next { s with fsm := .validate }) ∧
    (s.pc < s.len → ∃ t, step s = .next t ∧ (t.fsm = .dispatch ∨ t.fsm = .error))

/-- R77, R78, R79, R80: VALIDATE's checks in order, on the exact product. -/
def Obligations.ValidateChecksLengthThenShape : Prop :=
  ∀ s : State, s.pins.rst = false → s.fsm = .validate →
    let expected := s.width.toNat * s.height.toNat
    (expected = 0 ∨ s.pixCount ≠ expected → ∃ t, step s = .next t ∧ RaisedAt 6 s.pc s t) ∧
    (expected ≠ 0 ∧ s.pixCount = expected ∧ s.malformed = true → ∃ t, step s = .next t ∧ RaisedAt 7 s.pc s t) ∧
    (expected ≠ 0 ∧ s.pixCount = expected ∧ s.malformed = false → step s = .next { s with fsm := .done })

/-- R83: a session whose checks pass ends in DONE with its image, `err_code` 0 and the input consumed, and stays there without
START or reset. That the model's step then answers the same state is its own reading of R83's "does nothing" (DEDUCED, log 5). -/
def Obligations.PassedChecksDeliverTheImage : Prop :=
  ∀ s : State, Inv s → s.pins.rst = false → s.fsm = .validate →
    0 < s.width.toNat * s.height.toNat → s.pixCount = s.width.toNat * s.height.toNat → s.malformed = false →
    ∃ t img, step s = .next t ∧ t.fsm = .done ∧ t.errCode = 0 ∧ t.pc = t.len ∧ t.malformed = false ∧
      t.pixCount = t.width.toNat * t.height.toNat ∧ 0 < t.pixCount ∧ result t = some img ∧
      img.width = s.width ∧ img.height = s.height ∧ img.channels = s.channels ∧ img.colorspace = s.colorspace ∧
      img.grid.flatten = s.out ∧ (t.pins.start = false → step t = .next t)

/-- R32, R81: the result of a session that ended in DONE is a `height × width` grid, row-major, row 0 first, and every
element has `channels` components; no other state has a result. -/
def Obligations.ResultIsARowMajorGrid : Prop :=
  ∀ s : State, Inv s →
    (s.fsm = .done → ∃ img, result s = some img ∧ img.grid.length = s.height.toNat ∧
      ∀ y x, y < s.height.toNat → x < s.width.toNat →
        ∃ row p, img.grid[y]? = some row ∧ row.length = s.width.toNat ∧ row[x]? = some p ∧
          s.out[y * s.width.toNat + x]? = some p ∧ components p = s.channels.toNat) ∧
    (s.fsm ≠ .done → result s = none)

/-! ### Reset, START and the host -/

/-- R98: `rst` sampled 1 gives every register its reset value in every state, before `start` and before every step. -/
def Obligations.RstLoadsTheResetValues : Prop :=
  ∀ s : State, s.pins.rst = true →
    ∃ t, step s = .next t ∧ t.fsm = .idle ∧ StartValues t

/-- R99: START, from IDLE, DONE and ERROR: `LEN` is sampled, every register takes its start value, and the session begins
at address 0 in HEADER. -/
def Obligations.StartSamplesLenAndLoadsTheStartValues : Prop :=
  ∀ s : State, s.pins.rst = false → s.pins.start = true → quiescent s →
    ∃ t, step s = .next t ∧ t.fsm = .header ∧ StartValues t ∧ t.len = s.pins.len ∧ t.pins = s.pins ∧ t.input = s.input

/-- R21, column "reset": the state right after reset. -/
def Obligations.ResetStateHoldsTheResetColumn : Prop :=
  State.reset.fsm = .idle ∧ StartValues State.reset

/-- R106: while a session runs `start` is ignored and `len` is not sampled: the step is the same whatever they are. A
`start` held at 1 when the session has ended starts the next one. -/
def Obligations.StartAndLenAreIgnoredWhileBusy : Prop :=
  ∀ (s : State) (start : Bool) (len : Nat), s.pins.rst = false →
    (busy s = true →
      (∀ t, step s = .next t →
        step { s with pins := ⟨false, start, len⟩ } = .next { t with pins := ⟨false, start, len⟩ } ∧ t.pins = s.pins)) ∧
    (ended s → s.pins.start = true → ∃ t, step s = .next t ∧ t.fsm = .header)

/-- R83, R95, R11 "else none": without `start` and `rst`, IDLE, DONE and ERROR are left by nothing. That the model's step then
answers the same state is its own reading of "none" (DEDUCED, log 5). -/
def Obligations.QuiescentStatesWaitForTheHost : Prop :=
  ∀ s : State, s.pins.rst = false → s.pins.start = false → quiescent s → step s = .next s

/-- R11: the codes of the control states, and that the control state changes only as the table says. -/
def Obligations.ControlStatesFollowTheTable : Prop :=
  fsmCode .idle = 0 ∧ fsmCode .header = 1 ∧ fsmCode .dispatch = 2 ∧ fsmCode .validate = 3 ∧ fsmCode .done = 4 ∧
  fsmCode .error = 5 ∧
  ∀ s t : State, s.pins.rst = false → step s = .next t →
    (s.fsm = .idle → t.fsm = if s.pins.start then .header else .idle) ∧
    (s.fsm = .header → t.fsm = .dispatch ∨ t.fsm = .error) ∧
    (s.fsm = .dispatch → if s.pc = s.len then t.fsm = .validate else t.fsm = .dispatch ∨ t.fsm = .error) ∧
    (s.fsm = .validate → t.fsm = .done ∨ t.fsm = .error) ∧
    (s.fsm = .done → t.fsm = if s.pins.start then .header else .done) ∧
    (s.fsm = .error → t.fsm = if s.pins.start then .header else .error)

/-- R20: nothing of an earlier session, finished well or badly, is carried into the next: with the same pins and buffer, two
machines that take START are the same machine afterwards. -/
def Obligations.StartForgetsEarlierSessions : Prop :=
  ∀ s s' : State, s.pins = s'.pins → s.input = s'.input → s.pins.rst = false → s.pins.start = true →
    quiescent s → quiescent s' → ∃ t, step s = .next t ∧ step s' = .next t

/-- R35, R36, R100, U7, U11: what the host may do between steps and where it is turned away, for each of its actions, in the
model's own form (DEDUCED, log 11; DESIGN CHOICE, log 12). -/
def Obligations.HostActionsDoWhatTheHostMay : Prop :=
  ∀ s : State, s.input.wf = true →
    (∀ p, p.len < 2 ^ Config.addressWidth → busy s = false ∨ p.len = s.pins.len →
      hostAct (.drive p) s = .next { s with pins := p }) ∧
    (∀ p, p.len < 2 ^ Config.addressWidth → busy s = true → p.len ≠ s.pins.len →
      hostAct (.drive p) s = .refused .lenChangedInSession) ∧
    (∀ p, 2 ^ Config.addressWidth ≤ p.len → hostAct (.drive p) s = .refused .lenTooWide) ∧
    (∀ a v, busy s = true → a < s.len → s.input.read a ≠ v →
      hostAct (.putByte a v) s = .refused .inputChangedInSession) ∧
    (∀ a v, busy s = false ∨ s.len ≤ a ∨ s.input.read a = v → ∃ m, hostAct (.putByte a v) s = .next { s with input := m } ∧
      m.read a = v ∧ ∀ k, k ≠ a → m.read k = s.input.read k) ∧
    (∀ file, busy s = true → hostAct (.presentFile file) s = .refused .inputChangedInSession) ∧
    (∀ stream trailer : List Byte, busy s = false → trailer.length = Config.trailerLen →
      2 ^ Config.addressWidth ≤ stream.length →
      hostAct (.presentFile (stream ++ trailer)) s = .refused .lenTooWide) ∧
    (∀ stream trailer : List Byte, busy s = false → trailer.length = Config.trailerLen →
      stream.length < 2 ^ Config.addressWidth →
      ∃ m, hostAct (.presentFile (stream ++ trailer)) s =
          .next { s with input := m, pins := { s.pins with len := stream.length } } ∧
        ∀ k, k < stream.length → stream[k]? = some (m.read k))

/-! ### Frames and whole-machine rules -/

/-- R63, R35: an opcode changes no header register, no pin, no `LEN` and no byte of `IN`; `fsm` and `err_code` change only by an
error. -/
def Obligations.OpcodesKeepTheControlRegisters : Prop :=
  ∀ (i : Instr) (s t : State), i.isHeader = false → exec i s = .next t →
    t.width = s.width ∧ t.height = s.height ∧ t.channels = s.channels ∧ t.colorspace = s.colorspace ∧
    t.len = s.len ∧ t.pins = s.pins ∧ (∀ a, t.input.read a = s.input.read a) ∧
    (t.fsm = s.fsm ∧ t.errCode = s.errCode ∨ t.fsm = .error ∧ t.errCode = 1 ∧ PixelsKept s t)

/-- R15, R65: within a session the flag is set by one event only, an RGBA in a three-channel image, nothing clears it,
and a session that has it does not end in DONE. -/
def Obligations.OnlyRgbaInThreeChannelsSetsMalformed : Prop :=
  (∀ (i : Instr) (s t : State), exec i s = .next t →
    (s.malformed = true → t.malformed = true) ∧
    (s.malformed = false → t.malformed = true → s.channels = 3 ∧ ∃ r g b a, i = .rgba r g b a)) ∧
  (∀ s t : State, s.pins.rst = false → busy s = true → step s = .next t → s.malformed = true →
    t.malformed = true ∧ t.fsm ≠ .done)

/-- R10, R17, R61: within a session the cursor never moves backward, and `OUT` only grows at its end, by at most 62
pixels a step, counted. -/
def Obligations.StreamIsConsumedForwardAndOutputAppended : Prop :=
  ∀ s t : State, s.pins.rst = false → busy s = true → step s = .next t →
    s.pc ≤ t.pc ∧ t.pc ≤ s.pc + 14 ∧ ∃ l, t.out = s.out ++ l ∧ l.length ≤ 62 ∧ t.pixCount = s.pixCount + l.length

/-- The invariant holds right after reset. -/
def Obligations.ResetMeetsTheInvariant : Prop := Inv State.reset

/-- Every step keeps the invariant: the cursor within the buffer, the error code, the header registers, the shape and the
count of `OUT`, what DONE says, and `prev` and the cache as what `OUT` made them (R10 to R17, R33, R58, R75, R83). -/
def Obligations.StepKeepsTheInvariant : Prop :=
  ∀ s t : State, Inv s → step s = .next t → Inv t

/-- Whatever the host does between steps keeps the invariant (R100; the host's actions are the model's own form, DEDUCED,
log 11). -/
def Obligations.HostActionsKeepTheInvariant : Prop :=
  ∀ (a : HostAction) (s t : State), Inv s → hostAct a s = .next t → Inv t

/-- R5, U11: `LEN` and the `len` port never hold more than `AW` bits can, whatever the host does (their values in
the reset state are the model's choice, DESIGN CHOICE, logs 3 and 4). -/
def Obligations.LengthsStayWithinTheAddressWidth : Prop :=
  LengthsFit Config.addressWidth State.reset ∧
  (∀ s t : State, LengthsFit Config.addressWidth s → step s = .next t → LengthsFit Config.addressWidth t) ∧
  (∀ (a : HostAction) (s t : State), LengthsFit Config.addressWidth s → hostAct a s = .next t →
    LengthsFit Config.addressWidth t)

/-- R11: in a state that meets the invariant the machine always has a next state: no step stops or is refused. In IDLE, DONE and
ERROR without `start`, where R11 gives no step, that next state is the model's own reading (DEDUCED, log 5). -/
def Obligations.StepNeverStopsUnderTheInvariant : Prop :=
  ∀ s : State, Inv s → ∃ t, step s = .next t

/-- R75 (the spec's own derivation): every slot holds the most recent pushed pixel with its index, or the all-zero pixel if
there was none; a slot that is not all-zero is at its own hash. -/
def Obligations.CacheSlotIsTheLatestPushWithItsIndex : Prop :=
  ∀ (s : State) (idx : BitVec 6), Inv s →
    readCache s.cache idx = (latestWithIndex idx s.out).getD ⟨0, 0, 0, 0⟩ ∧
    (readCache s.cache idx ≠ ⟨0, 0, 0, 0⟩ → slotIndex (readCache s.cache idx) = idx)

/-- R13, R5 (the spec's own derivation): the pixel counter cannot overflow its `CW` bits, for every width `aw` of `LEN` with
`CW ≥ aw + 6`. -/
def Obligations.PixelCounterCannotOverflow : Prop :=
  ∀ (s : State) (aw : Nat), Inv s → LengthsFit aw s → aw + 6 ≤ Config.counterWidth →
    s.pixCount ≤ 62 * (s.len - 14) ∧ s.pixCount < 2 ^ Config.counterWidth

/-- R61, R101: a session ends in DONE or ERROR within 1 HDR, at most `LEN − 14` opcode steps, 1 EOS and 1 VALIDATE. The bound counts
the model's steps, which take no handshakes (DESIGN CHOICE, log 13): R101 has it only of a host that meets R100 (2) and (3). -/
def Obligations.SessionEndsWithinItsBound : Prop :=
  ∀ s : State, Inv s → s.pins.rst = false → s.fsm = .header →
    ∃ (k : Nat) (t : State), k ≤ (s.len - 14) + 3 ∧ Host.Core.run Sys2Proof.core k s = .next t ∧ ended t

/-- R101, R23: what a session does, for any number of steps, is a function of `IN[0..LEN−1]` and `LEN` alone: two machines
in the same state whose buffers agree below `LEN` stay the same but for the rest of the buffer. -/
def Obligations.SessionDependsOnItsStreamAlone : Prop :=
  ∀ (k : Nat) (s t : State), s.pins.rst = false → s.pins.start = false → SameStream s t →
    SameOutcome (Host.Core.run Sys2Proof.core k s) (Host.Core.run Sys2Proof.core k t)
end

