-- ==== Sys2Proof/Laws/Memory.lean ====
section
/-! SUPPORT. The laws of the input memory: read after write, and every operation keeps the canonical form. -/

namespace Sys2Proof.Machine

@[simp] theorem Memory.read_nil (k : Nat) : Memory.read [] k = Memory.unlisted := rfl

/-- The canonical form of a listed byte in front of a memory, spelt out. -/
theorem Memory.wf_cons (a : Nat) (v : Byte) (m : Memory) :
    Memory.wf ((a, v) :: m) = true ↔
      v ≠ Memory.unlisted ∧ (∀ e ∈ m, a < e.1) ∧ Memory.wf m = true := by
  simp [Memory.wf, and_assoc]

/-- Below every listed address nothing is listed. -/
theorem Memory.read_below {m : Memory} {k : Nat} (h : ∀ e ∈ m, k < e.1) :
    Memory.read m k = Memory.unlisted := by
  induction m with
  | nil => rfl
  | cons e m ih =>
    have he : k < e.1 := h e (by simp)
    simp only [Memory.read]
    rw [if_neg (by omega)]
    exact ih fun e' he' => h e' (by simp [he'])

/-- Read after write, in any canonical memory: the written byte at its address, every other byte as before. -/
theorem Memory.read_write {m : Memory} (hm : m.wf = true) (k : Nat) (v : Byte) (j : Nat) :
    (m.write k v).read j = if j = k then v else m.read j := by
  induction m with
  | nil =>
    simp only [Memory.write]
    split <;> rename_i hv
    · split <;> simp [hv]
    · simp only [Memory.read]
      by_cases h : k = j <;> simp [h, eq_comm]
  | cons e m ih =>
    obtain ⟨a, b⟩ := e
    obtain ⟨hb, hlo, hm⟩ := (Memory.wf_cons a b m).1 hm
    simp only [Memory.write]
    split
    · rename_i h
      simp only [Memory.read]
      by_cases h' : a = j
      · rw [if_pos h', if_pos h', if_neg (by omega)]
      · rw [if_neg h', if_neg h', ih hm]
    · split
      · rename_i h1 h2
        subst h2
        split
        · rename_i hv
          by_cases hj : j = a
          · subst hj
            rw [if_pos rfl, Memory.read_below hlo, hv]
          · rw [if_neg hj]
            simp only [Memory.read]
            rw [if_neg (Ne.symm hj)]
        · simp only [Memory.read]
          by_cases hj : a = j
          · simp [hj]
          · simp [hj, Ne.symm hj]
      · rename_i h1 h2
        have hk : Memory.read ((a, b) :: m) k = Memory.unlisted := by
          refine Memory.read_below fun e he => ?_
          rcases List.mem_cons.1 he with rfl | he
          · simp only; omega
          · have := hlo e he; omega
        split
        · rename_i hv
          by_cases hj : j = k
          · subst hj
            rw [if_pos rfl, hk, hv]
          · rw [if_neg hj]
        · rw [Memory.read]
          by_cases hj : k = j
          · rw [if_pos hj, if_pos hj.symm]
          · rw [if_neg hj, if_neg (Ne.symm hj)]

/-- A write lists no address but its own and those listed before. -/
theorem Memory.mem_write {m : Memory} {k : Nat} {v : Byte} {e : Host.Cell} (h : e ∈ m.write k v) :
    e.1 = k ∨ e ∈ m := by
  induction m with
  | nil =>
    simp only [Memory.write] at h
    split at h
    · simp at h
    · simp only [List.mem_singleton] at h; simp [h]
  | cons c m ih =>
    obtain ⟨a, b⟩ := c
    simp only [Memory.write] at h
    split at h
    · rcases List.mem_cons.1 h with rfl | h
      · simp
      · rcases ih h with h | h <;> simp [h]
    · split at h
      · split at h
        · simp [h]
        · rcases List.mem_cons.1 h with rfl | h <;> simp [*]
      · split at h
        · exact .inr h
        · rcases List.mem_cons.1 h with rfl | h
          · simp
          · exact .inr h

/-- A write keeps the canonical form. -/
theorem Memory.write_wf {m : Memory} (hm : m.wf = true) (k : Nat) (v : Byte) : (m.write k v).wf = true := by
  induction m with
  | nil =>
    simp only [Memory.write]
    split
    · rfl
    · rename_i h; simp [Memory.wf, h]
  | cons c m ih =>
    obtain ⟨a, b⟩ := c
    have hc := (Memory.wf_cons a b m).1 hm
    simp only [Memory.write]
    split
    · rename_i h
      refine (Memory.wf_cons _ _ _).2 ⟨hc.1, fun e he => ?_, ih hc.2.2⟩
      rcases Memory.mem_write he with h' | h'
      · omega
      · exact hc.2.1 e h'
    · split
      · rename_i h1 h2
        split
        · exact hc.2.2
        · rename_i hv
          exact (Memory.wf_cons _ _ _).2 ⟨hv, fun e he => by have := hc.2.1 e he; omega, hc.2.2⟩
      · rename_i h1 h2
        split
        · exact hm
        · rename_i hv
          refine (Memory.wf_cons _ _ _).2 ⟨hv, fun e he => ?_, hm⟩
          rcases List.mem_cons.1 he with rfl | he
          · simp only; omega
          · have := hc.2.1 e he; omega

/-- Writing consecutive bytes keeps the canonical form. -/
theorem Memory.writeBytes_wf {m : Memory} (hm : m.wf = true) (k : Nat) (vs : List Byte) :
    (m.writeBytes k vs).wf = true := by
  induction vs generalizing m k with
  | nil => exact hm
  | cons v vs ih => exact ih (Memory.write_wf hm k v) (k + 1)

/-- Read after writing consecutive bytes: the written ones in their range, every other byte as before. -/
theorem Memory.read_writeBytes {m : Memory} (hm : m.wf = true) (k : Nat) (vs : List Byte) (j : Nat) :
    (m.writeBytes k vs).read j = if k ≤ j then (vs[j - k]?).getD (m.read j) else m.read j := by
  induction vs generalizing m k with
  | nil => simp [Memory.writeBytes]
  | cons v vs ih =>
    rw [Memory.writeBytes, ih (Memory.write_wf hm k v), Memory.read_write hm]
    by_cases h1 : k + 1 ≤ j
    · have h2 : j - k = (j - (k + 1)) + 1 := by omega
      rw [if_pos h1, if_neg (show ¬j = k by omega), if_pos (show k ≤ j by omega), h2, List.getElem?_cons_succ]
    · rw [if_neg h1]
      by_cases h2 : j = k
      · subst h2; simp
      · rw [if_neg h2, if_neg (show ¬k ≤ j by omega)]

/-- `MemRead` reads `n` bytes. -/
@[simp] theorem memRead_length (m : Memory) (a n : Nat) : (memRead m a n).length = n := by simp [memRead]

/-- `MemRead` in address order, one byte at a time. -/
theorem memRead_succ (m : Memory) (a n : Nat) : memRead m a (n + 1) = m.read a :: memRead m (a + 1) n := by
  simp only [memRead, List.range_succ_eq_map, List.map_cons, List.map_map, Nat.add_zero]
  refine congrArg _ (List.map_congr_left fun k _ => ?_)
  simp only [Function.comp]
  congr 1
  omega

end Sys2Proof.Machine
end

