-- ==== Sys2Proof/Laws/Decode.lean ====
section
/-! SUPPORT. The decoder's small lemmas: what it answers is of the right kind, and what it is fed by the fetch. -/

namespace Sys2Proof

/-- The dispatcher never answers a RUN payload above 61: those tags are RGB and RGBA (R39). -/
theorem dispatch_run_le {tag : Byte} {n : BitVec 6} (h : dispatch tag = .run n) : n.toNat ≤ 61 := by
  have all : ∀ tag : Byte, (match dispatch tag with | .run n => decide (n.toNat ≤ 61) | _ => true) = true := by decide
  have := all tag
  rw [h] at this
  simpa using this

/-- A fact about a decoded unit is a fact about each of its six forms. -/
theorem decodeOperands_cases {P : Instr → Prop} {op : Op} {bs : List Byte} {i : Instr} {rest : List Byte}
    (h : decodeOperands op bs = .ok (i, rest))
    (hrgb : ∀ r g b, op = .rgb → bs = r :: g :: b :: rest → P (.rgb r g b))
    (hrgba : ∀ r g b a, op = .rgba → bs = r :: g :: b :: a :: rest → P (.rgba r g b a))
    (hindex : ∀ idx, op = .index idx → bs = rest → P (.index idx))
    (hdiff : ∀ fr fg fb, op = .diff fr fg fb → bs = rest → P (.diff fr fg fb))
    (hluma : ∀ fg b2, op = .luma fg → bs = b2 :: rest → P (.luma fg (b2.extractLsb' 4 4) (b2.extractLsb' 0 4)))
    (hrun : ∀ n, op = .run n → bs = rest → P (.run n)) : P i := by
  unfold decodeOperands at h
  split at h <;> simp only [Except.ok.injEq, Prod.mk.injEq, reduceCtorEq] at h <;> obtain ⟨rfl, rfl⟩ := h
  · exact hrgb _ _ _ rfl rfl
  · exact hrgba _ _ _ _ rfl rfl
  · exact hindex _ rfl rfl
  · exact hdiff _ _ _ rfl rfl
  · exact hluma _ _ rfl rfl
  · exact hrun _ rfl rfl

/-- A unit decoded by its tag is no header and is legal. -/
theorem decodeOpcode_legal {bs : List Byte} {i : Instr} {rest : List Byte} (h : decodeOpcode bs = .ok (i, rest)) :
    i.isHeader = false ∧ i.wellFormed = true := by
  cases bs with
  | nil => simp [decodeOpcode] at h
  | cons tag bs =>
    refine decodeOperands_cases (P := fun i => i.isHeader = false ∧ i.wellFormed = true) h ?_ ?_ ?_ ?_ ?_ ?_
    · exact fun _ _ _ _ _ => ⟨rfl, rfl⟩
    · exact fun _ _ _ _ _ _ => ⟨rfl, rfl⟩
    · exact fun _ _ _ => ⟨rfl, rfl⟩
    · exact fun _ _ _ _ _ => ⟨rfl, rfl⟩
    · exact fun _ _ _ _ => ⟨rfl, rfl⟩
    · exact fun n hn _ => ⟨rfl, by simpa [Instr.wellFormed, legalRunField] using dispatch_run_le hn⟩

/-- A unit decoded by position is a header. -/
theorem decodeHeader_isHeader {bs : List Byte} {i : Instr} {rest : List Byte} (h : decodeHeader bs = .ok (i, rest)) :
    ∃ m w t c cs, i = .hdr m w t c cs := by
  unfold decodeHeader at h
  split at h
  · simp only [Except.ok.injEq, Prod.mk.injEq] at h
    exact ⟨_, _, _, _, _, h.1.symm⟩
  · simp at h

/-- The big-endian number of four bytes, exactly: nothing is lost in 32 bits. -/
theorem bigEndian32_toNat (b0 b1 b2 b3 : Byte) : (bigEndian32 b0 b1 b2 b3).toNat =
    b0.toNat * 2 ^ 24 + b1.toNat * 2 ^ 16 + b2.toNat * 2 ^ 8 + b3.toNat := by
  have := b0.isLt; have := b1.isLt; have := b2.isLt; have := b3.isLt
  rw [bigEndian32, BitVec.toNat_ofNat, Nat.mod_eq_of_lt]
  omega

/-- One byte of a header word as a number. -/
theorem extractByte_toNat (v : Word32) (k : Nat) : (v.extractLsb' k 8).toNat = v.toNat / 2 ^ k % 2 ^ 8 := by
  rw [BitVec.extractLsb'_toNat, Nat.shiftRight_eq_div_pow]

/-- A header word is the big-endian number of its bytes. -/
theorem bigEndian32_bytes (v : Word32) :
    bigEndian32 (v.extractLsb' 24 8) (v.extractLsb' 16 8) (v.extractLsb' 8 8) (v.extractLsb' 0 8) = v := by
  apply BitVec.eq_of_toNat_eq
  simp only [bigEndian32_toNat, extractByte_toNat]
  have := v.isLt
  omega

/-- The bytes of a big-endian number are the bytes it was made of. -/
theorem bytesOfWord32_bigEndian32 (b0 b1 b2 b3 : Byte) : bytesOfWord32 (bigEndian32 b0 b1 b2 b3) = [b0, b1, b2, b3] := by
  have h0 := b0.isLt; have h1 := b1.isLt; have h2 := b2.isLt; have h3 := b3.isLt
  have e0 : (bigEndian32 b0 b1 b2 b3).extractLsb' 24 8 = b0 :=
    BitVec.eq_of_toNat_eq (by rw [extractByte_toNat, bigEndian32_toNat]; omega)
  have e1 : (bigEndian32 b0 b1 b2 b3).extractLsb' 16 8 = b1 :=
    BitVec.eq_of_toNat_eq (by rw [extractByte_toNat, bigEndian32_toNat]; omega)
  have e2 : (bigEndian32 b0 b1 b2 b3).extractLsb' 8 8 = b2 :=
    BitVec.eq_of_toNat_eq (by rw [extractByte_toNat, bigEndian32_toNat]; omega)
  have e3 : (bigEndian32 b0 b1 b2 b3).extractLsb' 0 8 = b3 :=
    BitVec.eq_of_toNat_eq (by rw [extractByte_toNat, bigEndian32_toNat]; omega)
  rw [bytesOfWord32, e0, e1, e2, e3]

namespace Machine

/-- The latched bytes in order. -/
theorem window_succ (n : Nat) (s : State) : window (n + 1) s = latch s s.pc :: window n { s with pc := s.pc + 1 } := by
  simp only [window, List.range_succ_eq_map, List.map_cons, List.map_map, Nat.add_zero]
  refine congrArg _ (List.map_congr_left fun k _ => ?_)
  simp only [Function.comp, latch]
  rw [show s.pc + 1 + k = s.pc + k.succ by omega]

/-- A latched byte before `LEN` is the byte of `IN`. -/
theorem latch_of_lt {s : State} {a : Nat} (h : a < s.len) : latch s a = s.input.read a := by simp [latch, h]

/-- With enough bytes before `LEN` the latched bytes are those of `IN`. -/
theorem window_of_le {n : Nat} {s : State} (h : s.pc + n ≤ s.len) : window n s = memRead s.input s.pc n := by
  refine List.map_congr_left fun k hk => latch_of_lt ?_
  have := List.mem_range.1 hk
  omega

/-- Fourteen bytes are always a header. -/
theorem fetchHeader_eq (s : State) : fetchHeader s = .ok (.hdr
    (bigEndian32 (latch s s.pc) (latch s (s.pc + 1)) (latch s (s.pc + 2)) (latch s (s.pc + 3)))
    (bigEndian32 (latch s (s.pc + 4)) (latch s (s.pc + 5)) (latch s (s.pc + 6)) (latch s (s.pc + 7)))
    (bigEndian32 (latch s (s.pc + 8)) (latch s (s.pc + 9)) (latch s (s.pc + 10)) (latch s (s.pc + 11)))
    (latch s (s.pc + 12)) (latch s (s.pc + 13)), []) := rfl

/-- Five bytes hold a whole opcode, whichever tag is first. -/
theorem fetchOpcode_eq (s : State) : fetchOpcode s = decodeOperands (dispatch (latch s s.pc))
    [latch s (s.pc + 1), latch s (s.pc + 2), latch s (s.pc + 3), latch s (s.pc + 4)] := rfl

end Machine

end Sys2Proof
end

