-- ==== Sys2Proof/Laws/Environment.lean ====
section
/-! SUPPORT. What a host action can do, said once. -/

namespace Sys2Proof.Machine

/-- A length fits the port exactly when `AW` bits can hold it (R5). -/
theorem lenFits_iff (n : Nat) : lenFits n = true ↔ n < 2 ^ Config.addressWidth := by simp [lenFits]

/-- The stream of a file that ends in a whole end marker (R36). -/
theorem streamOfFile_append {stream trailer : List Byte} (h : trailer.length = Config.trailerLen) :
    streamOfFile (stream ++ trailer) = stream := by
  rw [streamOfFile, List.length_append, h, Nat.add_sub_cancel, List.take_left]

/-- Everything a host action that is done can do. -/
theorem hostAct_cases {a : HostAction} {s t : State} (h : hostAct a s = .next t) :
    (∃ p, a = .drive p ∧ p.len < 2 ^ Config.addressWidth ∧ (busy s = true → p.len = s.pins.len) ∧
      t = { s with pins := p }) ∨
    (∃ addr v, a = .putByte addr v ∧ (busy s = true → addr < s.len → s.input.read addr = v) ∧
      t = { s with input := s.input.write addr v }) ∨
    (∃ file, a = .presentFile file ∧ busy s = false ∧ (streamOfFile file).length < 2 ^ Config.addressWidth ∧
      t = { s with
        input := s.input.writeBytes 0 (streamOfFile file)
        pins := { s.pins with len := (streamOfFile file).length } }) := by
  cases a with
  | drive p =>
    simp only [hostAct] at h
    split at h
    · cases h
    split at h
    · cases h
    rename_i hl hc
    refine .inl ⟨p, rfl, (lenFits_iff _).1 (by simpa using hl), ?_, (Host.Outcome.next.inj h).symm⟩
    intro hb
    simpa [changesLenInSession, hb] using hc
  | putByte addr v =>
    simp only [hostAct] at h
    split at h
    · cases h
    rename_i hc
    refine .inr (.inl ⟨addr, v, rfl, ?_, (Host.Outcome.next.inj h).symm⟩)
    intro hb ha
    simpa [inSession, hb, ha] using hc
  | presentFile file =>
    simp only [hostAct] at h
    split at h
    · cases h
    rename_i hb
    split at h
    · rename_i hl
      exact .inr (.inr ⟨file, rfl, by simpa using hb, (lenFits_iff _).1 hl, (Host.Outcome.next.inj h).symm⟩)
    · cases h

end Sys2Proof.Machine
end

