-- ==== Sys2Proof/Laws/State.lean ====
section
/-! SUPPORT. One lemma per field per update of State: what each shared update leaves in each field. -/

namespace Sys2Proof.Machine

@[simp] theorem initialise_fsm (s : State) : (initialise s).fsm = s.fsm := rfl
@[simp] theorem initialise_pc (s : State) : (initialise s).pc = 0 := rfl
@[simp] theorem initialise_width (s : State) : (initialise s).width = 0 := rfl
@[simp] theorem initialise_height (s : State) : (initialise s).height = 0 := rfl
@[simp] theorem initialise_channels (s : State) : (initialise s).channels = 0 := rfl
@[simp] theorem initialise_colorspace (s : State) : (initialise s).colorspace = 0 := rfl
@[simp] theorem initialise_prev (s : State) : (initialise s).prev = startPrev := rfl
@[simp] theorem initialise_cache (s : State) : (initialise s).cache = emptyCache := rfl
@[simp] theorem initialise_pixCount (s : State) : (initialise s).pixCount = 0 := rfl
@[simp] theorem initialise_malformed (s : State) : (initialise s).malformed = false := rfl
@[simp] theorem initialise_errCode (s : State) : (initialise s).errCode = 0 := rfl
@[simp] theorem initialise_out (s : State) : (initialise s).out = [] := rfl
@[simp] theorem initialise_len (s : State) : (initialise s).len = s.len := rfl
@[simp] theorem initialise_input (s : State) : (initialise s).input = s.input := rfl
@[simp] theorem initialise_pins (s : State) : (initialise s).pins = s.pins := rfl

@[simp] theorem resetStep_fsm (s : State) : (resetStep s).fsm = .idle := rfl
@[simp] theorem resetStep_pc (s : State) : (resetStep s).pc = 0 := rfl
@[simp] theorem resetStep_width (s : State) : (resetStep s).width = 0 := rfl
@[simp] theorem resetStep_height (s : State) : (resetStep s).height = 0 := rfl
@[simp] theorem resetStep_channels (s : State) : (resetStep s).channels = 0 := rfl
@[simp] theorem resetStep_colorspace (s : State) : (resetStep s).colorspace = 0 := rfl
@[simp] theorem resetStep_prev (s : State) : (resetStep s).prev = startPrev := rfl
@[simp] theorem resetStep_cache (s : State) : (resetStep s).cache = emptyCache := rfl
@[simp] theorem resetStep_pixCount (s : State) : (resetStep s).pixCount = 0 := rfl
@[simp] theorem resetStep_malformed (s : State) : (resetStep s).malformed = false := rfl
@[simp] theorem resetStep_errCode (s : State) : (resetStep s).errCode = 0 := rfl
@[simp] theorem resetStep_out (s : State) : (resetStep s).out = [] := rfl
@[simp] theorem resetStep_len (s : State) : (resetStep s).len = s.len := rfl
@[simp] theorem resetStep_input (s : State) : (resetStep s).input = s.input := rfl
@[simp] theorem resetStep_pins (s : State) : (resetStep s).pins = s.pins := rfl

@[simp] theorem startStep_fsm (s : State) : (startStep s).fsm = .header := rfl
@[simp] theorem startStep_pc (s : State) : (startStep s).pc = 0 := rfl
@[simp] theorem startStep_width (s : State) : (startStep s).width = 0 := rfl
@[simp] theorem startStep_height (s : State) : (startStep s).height = 0 := rfl
@[simp] theorem startStep_channels (s : State) : (startStep s).channels = 0 := rfl
@[simp] theorem startStep_colorspace (s : State) : (startStep s).colorspace = 0 := rfl
@[simp] theorem startStep_prev (s : State) : (startStep s).prev = startPrev := rfl
@[simp] theorem startStep_cache (s : State) : (startStep s).cache = emptyCache := rfl
@[simp] theorem startStep_pixCount (s : State) : (startStep s).pixCount = 0 := rfl
@[simp] theorem startStep_malformed (s : State) : (startStep s).malformed = false := rfl
@[simp] theorem startStep_errCode (s : State) : (startStep s).errCode = 0 := rfl
@[simp] theorem startStep_out (s : State) : (startStep s).out = [] := rfl
@[simp] theorem startStep_len (s : State) : (startStep s).len = s.pins.len := rfl
@[simp] theorem startStep_input (s : State) : (startStep s).input = s.input := rfl
@[simp] theorem startStep_pins (s : State) : (startStep s).pins = s.pins := rfl

@[simp] theorem eosStep_fsm (s : State) : (eosStep s).fsm = .validate := rfl
@[simp] theorem eosStep_pc (s : State) : (eosStep s).pc = s.pc := rfl
@[simp] theorem eosStep_width (s : State) : (eosStep s).width = s.width := rfl
@[simp] theorem eosStep_height (s : State) : (eosStep s).height = s.height := rfl
@[simp] theorem eosStep_channels (s : State) : (eosStep s).channels = s.channels := rfl
@[simp] theorem eosStep_colorspace (s : State) : (eosStep s).colorspace = s.colorspace := rfl
@[simp] theorem eosStep_prev (s : State) : (eosStep s).prev = s.prev := rfl
@[simp] theorem eosStep_cache (s : State) : (eosStep s).cache = s.cache := rfl
@[simp] theorem eosStep_pixCount (s : State) : (eosStep s).pixCount = s.pixCount := rfl
@[simp] theorem eosStep_malformed (s : State) : (eosStep s).malformed = s.malformed := rfl
@[simp] theorem eosStep_errCode (s : State) : (eosStep s).errCode = s.errCode := rfl
@[simp] theorem eosStep_out (s : State) : (eosStep s).out = s.out := rfl
@[simp] theorem eosStep_len (s : State) : (eosStep s).len = s.len := rfl
@[simp] theorem eosStep_input (s : State) : (eosStep s).input = s.input := rfl
@[simp] theorem eosStep_pins (s : State) : (eosStep s).pins = s.pins := rfl

@[simp] theorem push_fsm (p : Pixel) (s : State) : (push p s).fsm = s.fsm := rfl
@[simp] theorem push_pc (p : Pixel) (s : State) : (push p s).pc = s.pc := rfl
@[simp] theorem push_width (p : Pixel) (s : State) : (push p s).width = s.width := rfl
@[simp] theorem push_height (p : Pixel) (s : State) : (push p s).height = s.height := rfl
@[simp] theorem push_channels (p : Pixel) (s : State) : (push p s).channels = s.channels := rfl
@[simp] theorem push_colorspace (p : Pixel) (s : State) : (push p s).colorspace = s.colorspace := rfl
@[simp] theorem push_prev (p : Pixel) (s : State) : (push p s).prev = effective s.channels p := rfl
@[simp] theorem push_cache (p : Pixel) (s : State) : (push p s).cache = writeCache s.cache (slotIndex (effective s.channels p)) (effective s.channels p) := rfl
@[simp] theorem push_pixCount (p : Pixel) (s : State) : (push p s).pixCount = s.pixCount + 1 := rfl
@[simp] theorem push_malformed (p : Pixel) (s : State) : (push p s).malformed = s.malformed := rfl
@[simp] theorem push_errCode (p : Pixel) (s : State) : (push p s).errCode = s.errCode := rfl
@[simp] theorem push_out (p : Pixel) (s : State) : (push p s).out = s.out ++ [outPixel s.channels (effective s.channels p)] := rfl
@[simp] theorem push_len (p : Pixel) (s : State) : (push p s).len = s.len := rfl
@[simp] theorem push_input (p : Pixel) (s : State) : (push p s).input = s.input := rfl
@[simp] theorem push_pins (p : Pixel) (s : State) : (push p s).pins = s.pins := rfl

@[simp] theorem placeHeader_fsm (bs : List Byte) (s : State) : (placeHeader bs s).fsm = .header := rfl
@[simp] theorem placeHeader_pc (bs : List Byte) (s : State) : (placeHeader bs s).pc = 0 := rfl
@[simp] theorem placeHeader_width (bs : List Byte) (s : State) : (placeHeader bs s).width = s.width := rfl
@[simp] theorem placeHeader_height (bs : List Byte) (s : State) : (placeHeader bs s).height = s.height := rfl
@[simp] theorem placeHeader_channels (bs : List Byte) (s : State) : (placeHeader bs s).channels = s.channels := rfl
@[simp] theorem placeHeader_colorspace (bs : List Byte) (s : State) : (placeHeader bs s).colorspace = s.colorspace := rfl
@[simp] theorem placeHeader_prev (bs : List Byte) (s : State) : (placeHeader bs s).prev = s.prev := rfl
@[simp] theorem placeHeader_cache (bs : List Byte) (s : State) : (placeHeader bs s).cache = s.cache := rfl
@[simp] theorem placeHeader_pixCount (bs : List Byte) (s : State) : (placeHeader bs s).pixCount = s.pixCount := rfl
@[simp] theorem placeHeader_malformed (bs : List Byte) (s : State) : (placeHeader bs s).malformed = s.malformed := rfl
@[simp] theorem placeHeader_errCode (bs : List Byte) (s : State) : (placeHeader bs s).errCode = s.errCode := rfl
@[simp] theorem placeHeader_out (bs : List Byte) (s : State) : (placeHeader bs s).out = s.out := rfl
@[simp] theorem placeHeader_len (bs : List Byte) (s : State) : (placeHeader bs s).len = max s.len bs.length := rfl
@[simp] theorem placeHeader_input (bs : List Byte) (s : State) : (placeHeader bs s).input = Memory.writeBytes s.input 0 bs := rfl
@[simp] theorem placeHeader_pins (bs : List Byte) (s : State) : (placeHeader bs s).pins = { s.pins with rst := false } := rfl

@[simp] theorem placeOpcode_fsm (bs : List Byte) (s : State) : (placeOpcode bs s).fsm = .dispatch := rfl
@[simp] theorem placeOpcode_pc (bs : List Byte) (s : State) : (placeOpcode bs s).pc = opcodeAddress s := rfl
@[simp] theorem placeOpcode_width (bs : List Byte) (s : State) : (placeOpcode bs s).width = s.width := rfl
@[simp] theorem placeOpcode_height (bs : List Byte) (s : State) : (placeOpcode bs s).height = s.height := rfl
@[simp] theorem placeOpcode_channels (bs : List Byte) (s : State) : (placeOpcode bs s).channels = opcodeChannels s := rfl
@[simp] theorem placeOpcode_colorspace (bs : List Byte) (s : State) : (placeOpcode bs s).colorspace = s.colorspace := rfl
@[simp] theorem placeOpcode_prev (bs : List Byte) (s : State) : (placeOpcode bs s).prev = s.prev := rfl
@[simp] theorem placeOpcode_cache (bs : List Byte) (s : State) : (placeOpcode bs s).cache = s.cache := rfl
@[simp] theorem placeOpcode_pixCount (bs : List Byte) (s : State) : (placeOpcode bs s).pixCount = s.pixCount := rfl
@[simp] theorem placeOpcode_malformed (bs : List Byte) (s : State) : (placeOpcode bs s).malformed = s.malformed := rfl
@[simp] theorem placeOpcode_errCode (bs : List Byte) (s : State) : (placeOpcode bs s).errCode = s.errCode := rfl
@[simp] theorem placeOpcode_out (bs : List Byte) (s : State) : (placeOpcode bs s).out = s.out := rfl
@[simp] theorem placeOpcode_len (bs : List Byte) (s : State) : (placeOpcode bs s).len = max s.len (opcodeAddress s + bs.length) := rfl
@[simp] theorem placeOpcode_input (bs : List Byte) (s : State) : (placeOpcode bs s).input = Memory.writeBytes s.input (opcodeAddress s) bs := rfl
@[simp] theorem placeOpcode_pins (bs : List Byte) (s : State) : (placeOpcode bs s).pins = { s.pins with rst := false } := rfl

/-- The flag update in one form, whatever `channels` is. -/
theorem markMalformed_eq (s : State) :
    markMalformed s = { s with malformed := s.malformed || decide (s.channels = 3) } := by
  by_cases h : s.channels = 3#3 <;> simp [markMalformed, h]

@[simp] theorem markMalformed_fsm (s : State) : (markMalformed s).fsm = s.fsm := by
  rw [markMalformed_eq]
@[simp] theorem markMalformed_pc (s : State) : (markMalformed s).pc = s.pc := by
  rw [markMalformed_eq]
@[simp] theorem markMalformed_width (s : State) : (markMalformed s).width = s.width := by
  rw [markMalformed_eq]
@[simp] theorem markMalformed_height (s : State) : (markMalformed s).height = s.height := by
  rw [markMalformed_eq]
@[simp] theorem markMalformed_channels (s : State) : (markMalformed s).channels = s.channels := by
  rw [markMalformed_eq]
@[simp] theorem markMalformed_colorspace (s : State) : (markMalformed s).colorspace = s.colorspace := by
  rw [markMalformed_eq]
@[simp] theorem markMalformed_prev (s : State) : (markMalformed s).prev = s.prev := by
  rw [markMalformed_eq]
@[simp] theorem markMalformed_cache (s : State) : (markMalformed s).cache = s.cache := by
  rw [markMalformed_eq]
@[simp] theorem markMalformed_pixCount (s : State) : (markMalformed s).pixCount = s.pixCount := by
  rw [markMalformed_eq]
@[simp] theorem markMalformed_malformed (s : State) : (markMalformed s).malformed = (s.malformed || decide (s.channels = 3)) := by
  rw [markMalformed_eq]
@[simp] theorem markMalformed_errCode (s : State) : (markMalformed s).errCode = s.errCode := by
  rw [markMalformed_eq]
@[simp] theorem markMalformed_out (s : State) : (markMalformed s).out = s.out := by
  rw [markMalformed_eq]
@[simp] theorem markMalformed_len (s : State) : (markMalformed s).len = s.len := by
  rw [markMalformed_eq]
@[simp] theorem markMalformed_input (s : State) : (markMalformed s).input = s.input := by
  rw [markMalformed_eq]
@[simp] theorem markMalformed_pins (s : State) : (markMalformed s).pins = s.pins := by
  rw [markMalformed_eq]

end Sys2Proof.Machine
end

