-- ==== Sys2Proof/Laws/Ops.lean ====
section
/-! SUPPORT. One lemma per shared operation: everything it can do. -/

namespace Sys2Proof.Machine

/-- `raise` answers one next state: `fsm` and `err_code` written, all else as it was. -/
theorem raise_eq (k : ErrorKind) (s : State) :
    raise k s = .next { s with fsm := .error, errCode := errorCode k } := rfl

/-- No error kind has code 0. -/
theorem errorCode_ne_zero (k : ErrorKind) : errorCode k ≠ 0 := by cases k <;> decide

/-- The codes are 1 to 7. -/
theorem errorCode_le (k : ErrorKind) : (errorCode k).toNat ≤ 7 := by cases k <;> decide

/-- Different kinds have different codes. -/
theorem errorCode_injective {j k : ErrorKind} (h : errorCode j = errorCode k) : j = k := by
  revert h
  cases j <;> cases k <;> decide

/-! ### Cursor reads -/

/-- A read with enough bytes left answers them and moves the cursor. -/
theorem readBytes_of_le {n : Nat} {s : State} (h : n ≤ s.len - s.pc) :
    readBytes n s = some (memRead s.input s.pc n, { s with pc := s.pc + n }) := by
  rw [readBytes, if_neg (by omega)]

/-- A read with too few bytes left fails. -/
theorem readBytes_of_lt {n : Nat} {s : State} (h : s.len - s.pc < n) : readBytes n s = none := by
  rw [readBytes, if_pos h]

/-- `ReadByte` with a byte left. -/
theorem readByte_of_le {s : State} (h : 1 ≤ s.len - s.pc) :
    readByte s = some (s.input.read s.pc, { s with pc := s.pc + 1 }) := by
  simp [readByte, readBytes_of_le h, memRead]

/-- `ReadByte` at the end. -/
theorem readByte_of_lt {s : State} (h : s.len - s.pc < 1) : readByte s = none := by
  simp [readByte, readBytes_of_lt h]

/-- `ReadU32BE` with four bytes left. -/
theorem readU32BE_of_le {s : State} (h : 4 ≤ s.len - s.pc) :
    readU32BE s = some (bigEndian32 (s.input.read s.pc) (s.input.read (s.pc + 1)) (s.input.read (s.pc + 2))
      (s.input.read (s.pc + 3)), { s with pc := s.pc + 4 }) := by
  simp [readU32BE, readBytes_of_le h, memRead, List.range_succ]

/-- `ReadU32BE` with fewer than four bytes left. -/
theorem readU32BE_of_lt {s : State} (h : s.len - s.pc < 4) : readU32BE s = none := by
  simp [readU32BE, readBytes_of_lt h]

/-- An operand read with enough bytes left goes on with the cursor moved. -/
theorem consume_of_le {n : Nat} {s : State} (h : n ≤ s.len - s.pc) (k : State → Result) :
    consume n s k = k { s with pc := s.pc + n } := by
  rw [consume, readBytes_of_le h]

/-- An operand read with too few bytes left raises `UnexpectedEndOfInput`, the cursor where it was. -/
theorem consume_of_lt {n : Nat} {s : State} (h : s.len - s.pc < n) (k : State → Result) :
    consume n s k = raise .unexpectedEndOfInput s := by
  rw [consume, readBytes_of_lt h]

/-! ### The cache and the push -/

/-- Read after write of the cache: the written slot holds the pixel, every other slot what it held. -/
theorem readCache_writeCache (cache : Vector Pixel 64) (i : BitVec 6) (p : Pixel) (j : BitVec 6) :
    readCache (writeCache cache i p) j = if j = i then p else readCache cache j := by
  simp only [readCache, writeCache, Vector.getElem_set]
  by_cases h : j = i
  · simp [h]
  · rw [if_neg h, if_neg fun h' => h (BitVec.eq_of_toNat_eq h'.symm)]

/-- Writing what a slot holds changes nothing. -/
theorem writeCache_self (cache : Vector Pixel 64) (i : BitVec 6) : writeCache cache i (readCache cache i) = cache := by
  simp [readCache, writeCache]

/-- A second write of the same slot replaces the first. -/
theorem writeCache_writeCache (cache : Vector Pixel 64) (i : BitVec 6) (p q : Pixel) :
    writeCache (writeCache cache i p) i q = writeCache cache i q := by
  simp [writeCache]

/-- The hash as a number. -/
theorem slotIndex_toNat (p : Pixel) :
    (slotIndex p).toNat = (p.r.toNat * 3 + p.g.toNat * 5 + p.b.toNat * 7 + p.a.toNat * 11) % 64 := by
  simp only [slotIndex, BitVec.toNat_ofNat]
  omega

/-- The effective pixel of an effective pixel is itself. -/
@[simp] theorem effective_effective (c : BitVec 3) (p : Pixel) : effective c (effective c p) = effective c p := by
  unfold effective
  by_cases h : c = 4#3 <;> simp [h]

/-- The element of `OUT` carries no more than the effective pixel. -/
@[simp] theorem outPixel_effective (c : BitVec 3) (p : Pixel) : outPixel c (effective c p) = outPixel c p := by
  unfold effective outPixel
  by_cases h : c = 4#3 <;> simp [h]

@[simp] theorem pushN_zero (p : Pixel) (s : State) : pushN 0 p s = s := rfl

/-- One push is a run of length one. -/
theorem push_eq_pushN (p : Pixel) (s : State) : push p s = pushN 1 p s := rfl

/-- Everything `n + 1` equal pushes do, said once. -/
theorem pushN_succ_eq (n : Nat) (p : Pixel) (s : State) :
    pushN (n + 1) p s = { s with
      out := s.out ++ List.replicate (n + 1) (outPixel s.channels p)
      pixCount := s.pixCount + (n + 1)
      prev := effective s.channels p
      cache := writeCache s.cache (slotIndex (effective s.channels p)) (effective s.channels p) } := by
  induction n generalizing s with
  | zero => simp [pushN, push, List.replicate]
  | succ n ih =>
    have step : pushN (n + 1 + 1) p s = pushN (n + 1) p (push p s) := rfl
    rw [step, ih (push p s)]
    have hrep : List.replicate (n + 1 + 1) (outPixel s.channels p)
        = outPixel s.channels p :: List.replicate (n + 1) (outPixel s.channels p) := rfl
    simp only [push, outPixel_effective, writeCache_writeCache, hrep, List.append_assoc, List.singleton_append,
      Nat.add_assoc]
    congr 2
    omega

end Sys2Proof.Machine
end

