-- ==== Sys2Proof/Laws/Exec.lean ====
section
/-! SUPPORT. What a meaning can do, said once: one equation for the six opcodes and one for HDR, which later proofs cite instead of
unfolding the meanings. -/

namespace Sys2Proof.Machine

/-- How many pixels a unit pushes. -/
def pushes : Instr → Nat
  | .hdr _ _ _ _ _ => 0
  | .rgb _ _ _ => 1
  | .rgba _ _ _ _ => 1
  | .index _ => 1
  | .diff _ _ _ => 1
  | .luma _ _ _ => 1
  | .run n => runCount n

/-- The pixel an opcode pushes. -/
def pushedPixel : Instr → State → Pixel
  | .hdr _ _ _ _ _, s => s.prev
  | .rgb r g b, s => ⟨r, g, b, s.prev.a⟩
  | .rgba r g b a, _ => ⟨r, g, b, a⟩
  | .index idx, s => readCache s.cache idx
  | .diff fr fg fb, s => addDeltas s.prev (diffDelta fr) (diffDelta fg) (diffDelta fb)
  | .luma fg fro fbo, s =>
    addDeltas s.prev (lumaGreen fg + lumaOffset fro) (lumaGreen fg) (lumaGreen fg + lumaOffset fbo)
  | .run _, s => s.prev

/-- Whether a unit sets the flag. -/
def flags : Instr → State → Bool
  | .rgba _ _ _ _, s => decide (s.channels = 3)
  | _, _ => false

/-- The state an opcode pushes into: the cursor past the unit, the flag updated. -/
def pastUnit (i : Instr) (s : State) : State :=
  { s with pc := s.pc + unitLength i, malformed := s.malformed || flags i s }

/-- Every opcode pushes at least one pixel. -/
theorem pushes_pos {i : Instr} (hi : i.isHeader = false) : 0 < pushes i := by
  cases i <;> simp_all [pushes, Instr.isHeader, runCount]

/-- A legal opcode pushes at most 62 pixels. -/
theorem pushes_le {i : Instr} (hi : i.wellFormed = true) : pushes i ≤ 62 := by
  cases i <;> simp_all [pushes, runCount, Instr.wellFormed, legalRunField]
  omega

/-- No opcode is longer than RGBA, and none is empty. -/
theorem unitLength_bounds {i : Instr} (hi : i.isHeader = false) : 1 ≤ unitLength i ∧ unitLength i ≤ 5 := by
  cases i <;> simp_all [unitLength, Instr.isHeader]

/-- A one-byte unit: the tag read and then the pushes. -/
theorem consume_one (s : State) (k : State → Result) :
    consume 1 s k = if s.pc + 1 ≤ s.len then k { s with pc := s.pc + 1 }
      else raise .unexpectedEndOfInput { s with pc := if s.pc < s.len then s.pc + 1 else s.pc } := by
  by_cases h : s.pc + 1 ≤ s.len
  · rw [if_pos h, consume_of_le (by omega)]
  · rw [if_neg h, consume_of_lt (by omega), if_neg (show ¬s.pc < s.len by omega)]

/-- A tag read followed by one operand read. -/
theorem consume_two (n : Nat) (hn : 1 ≤ n) (s : State) (k : State → Result) :
    (consume 1 s fun s => consume n s k) = if s.pc + (n + 1) ≤ s.len then k { s with pc := s.pc + (n + 1) }
      else raise .unexpectedEndOfInput { s with pc := if s.pc < s.len then s.pc + 1 else s.pc } := by
  by_cases h1 : s.pc + 1 ≤ s.len
  · rw [consume_of_le (by omega), if_pos (show s.pc < s.len by omega)]
    by_cases h : s.pc + (n + 1) ≤ s.len
    · rw [if_pos h, consume_of_le (by simp only; omega)]
      simp only [Nat.add_assoc, Nat.add_comm 1 n]
    · rw [if_neg h, consume_of_lt (by simp only; omega)]
  · rw [if_neg (show ¬s.pc + (n + 1) ≤ s.len by omega), consume_of_lt (by omega), if_neg (show ¬s.pc < s.len by omega)]

/-- The six opcodes in one equation: with the whole unit before `LEN` the pushes happen past the unit; else
`UnexpectedEndOfInput`, with the cursor past the tag if there is a tag. -/
theorem exec_opcode {i : Instr} (hi : i.isHeader = false) (s : State) :
    exec i s = if s.pc + unitLength i ≤ s.len then .next (pushN (pushes i) (pushedPixel i s) (pastUnit i s))
      else raise .unexpectedEndOfInput { s with pc := if s.pc < s.len then s.pc + 1 else s.pc } := by
  cases i with
  | hdr => simp [Instr.isHeader] at hi
  | rgb r g b =>
    simp only [exec, execRgb, consume_two 3 (by decide), unitLength, pushes, pushedPixel, pastUnit, flags,
      ← push_eq_pushN, Bool.or_false]
  | rgba r g b a =>
    simp only [exec, execRgba, consume_two 4 (by decide), unitLength, pushes, pushedPixel, pastUnit, flags,
      ← push_eq_pushN, markMalformed_eq]
    rfl
  | index idx =>
    simp only [exec, execIndex, consume_one, unitLength, pushes, pushedPixel, pastUnit, flags, ← push_eq_pushN,
      Bool.or_false]
  | diff fr fg fb =>
    simp only [exec, execDiff, consume_one, unitLength, pushes, pushedPixel, pastUnit, flags, ← push_eq_pushN,
      Bool.or_false]
  | luma fg fro fbo =>
    simp only [exec, execLuma, consume_two 1 (by decide), unitLength, pushes, pushedPixel, pastUnit, flags,
      ← push_eq_pushN, Bool.or_false]
  | run n =>
    simp only [exec, execRun, consume_one, unitLength, pushes, pushedPixel, pastUnit, flags, Bool.or_false]

/-- An opcode with its whole unit before `LEN` completes. -/
theorem exec_opcode_of_le {i : Instr} (hi : i.isHeader = false) {s : State} (h : s.pc + unitLength i ≤ s.len) :
    exec i s = .next (pushN (pushes i) (pushedPixel i s) (pastUnit i s)) := by
  rw [exec_opcode hi, if_pos h]

/-- HDR as one chain of tests, in address order: the reads and the checks interleaved (R51). -/
theorem exec_hdr (m w h : Word32) (c cs : Byte) (s : State) :
    exec (.hdr m w h c cs) s =
      if s.len - s.pc < 4 then raise .unexpectedEndOfInput s
      else if m ≠ Config.magic then raise .invalidMagic { s with pc := s.pc + 4 }
      else if s.len - s.pc < 8 then raise .unexpectedEndOfInput { s with pc := s.pc + 4 }
      else if s.len - s.pc < 12 then raise .unexpectedEndOfInput { s with pc := s.pc + 8 }
      else if s.len - s.pc < 13 then raise .unexpectedEndOfInput { s with pc := s.pc + 12 }
      else if c ≠ 3 ∧ c ≠ 4 then raise .invalidChannelCount { s with pc := s.pc + 13 }
      else if s.len - s.pc < 14 then raise .unexpectedEndOfInput { s with pc := s.pc + 13 }
      else if cs ≠ 0 ∧ cs ≠ 1 then raise .invalidColorSpace { s with pc := s.pc + 14 }
      else .next { s with
        pc := s.pc + 14
        width := w
        height := h
        channels := c.setWidth 3
        colorspace := cs.setWidth 1
        fsm := .dispatch } := by
  simp only [exec, execHdr]
  by_cases h4 : s.len - s.pc < 4
  · rw [if_pos h4, consume_of_lt h4]
  rw [if_neg h4, consume_of_le (by omega)]
  split
  · rfl
  by_cases h8 : s.len - s.pc < 8
  · rw [if_pos h8, consume_of_lt (by simp only; omega)]
  rw [if_neg h8, consume_of_le (by simp only; omega)]
  by_cases h12 : s.len - s.pc < 12
  · rw [if_pos h12, consume_of_lt (by simp only; omega)]
  rw [if_neg h12, consume_of_le (by simp only; omega)]
  by_cases h13 : s.len - s.pc < 13
  · rw [if_pos h13, consume_of_lt (by simp only; omega)]
  rw [if_neg h13, consume_of_le (by simp only; omega)]
  split
  · rfl
  by_cases h14 : s.len - s.pc < 14
  · rw [if_pos h14, consume_of_lt (by simp only; omega)]
  rw [if_neg h14, consume_of_le (by simp only; omega)]

/-- How far HDR has read when it raises an error (the table of R84). -/
def hdrErrorAt : ErrorKind → List Nat
  | .unexpectedEndOfInput => [0, 4, 8, 12, 13]
  | .invalidMagic => [4]
  | .invalidChannelCount => [13]
  | .invalidColorSpace => [14]
  | .corruptStream => []
  | .lengthMismatch => []
  | .malformedPixel => []

/-- What HDR can do: an error with the cursor moved by at most fourteen, or the header registers written. -/
theorem exec_hdr_cases (m w h : Word32) (c cs : Byte) (s : State) :
    (∃ k d, d ∈ hdrErrorAt k ∧ d ≤ s.len - s.pc ∧
      exec (.hdr m w h c cs) s = raise k { s with pc := s.pc + d }) ∨
    (s.pc + 14 ≤ s.len ∧ (c = 3 ∨ c = 4) ∧ (cs = 0 ∨ cs = 1) ∧ m = Config.magic ∧
      exec (.hdr m w h c cs) s = .next { s with
        pc := s.pc + 14
        width := w
        height := h
        channels := c.setWidth 3
        colorspace := cs.setWidth 1
        fsm := .dispatch }) := by
  rw [exec_hdr]
  by_cases h4 : s.len - s.pc < 4
  · exact .inl ⟨.unexpectedEndOfInput, 0, by decide, by omega, by rw [if_pos h4]; rfl⟩
  rw [if_neg h4]
  by_cases hm : m ≠ Config.magic
  · exact .inl ⟨.invalidMagic, 4, by decide, by omega, by rw [if_pos hm]⟩
  rw [if_neg hm]
  by_cases h8 : s.len - s.pc < 8
  · exact .inl ⟨.unexpectedEndOfInput, 4, by decide, by omega, by rw [if_pos h8]⟩
  rw [if_neg h8]
  by_cases h12 : s.len - s.pc < 12
  · exact .inl ⟨.unexpectedEndOfInput, 8, by decide, by omega, by rw [if_pos h12]⟩
  rw [if_neg h12]
  by_cases h13 : s.len - s.pc < 13
  · exact .inl ⟨.unexpectedEndOfInput, 12, by decide, by omega, by rw [if_pos h13]⟩
  rw [if_neg h13]
  by_cases hc : c ≠ 3 ∧ c ≠ 4
  · exact .inl ⟨.invalidChannelCount, 13, by decide, by omega, by rw [if_pos hc]⟩
  rw [if_neg hc]
  by_cases h14 : s.len - s.pc < 14
  · exact .inl ⟨.unexpectedEndOfInput, 13, by decide, by omega, by rw [if_pos h14]⟩
  rw [if_neg h14]
  by_cases hs : cs ≠ 0 ∧ cs ≠ 1
  · exact .inl ⟨.invalidColorSpace, 14, by decide, by omega, by rw [if_pos hs]⟩
  rw [if_neg hs]
  exact .inr ⟨by omega, by tauto, by tauto, by tauto, rfl⟩

/-! ### What a meaning neither reads nor writes -/

/-- A state in another environment: other pins and another input buffer. -/
def withEnv (p : Pins) (m : Memory) (s : State) : State := { s with pins := p, input := m }

/-- An outcome with its next state changed. -/
def mapNext (f : State → State) : Result → Result
  | .next s => .next (f s)
  | .fault r => .fault r
  | .refused r => .refused r

theorem mapNext_ite (f : State → State) (c : Prop) [Decidable c] (a b : Result) :
    mapNext f (if c then a else b) = if c then mapNext f a else mapNext f b := by
  split <;> rfl

theorem pushN_withEnv (n : Nat) (q : Pixel) (p : Pins) (m : Memory) (s : State) :
    pushN n q (withEnv p m s) = withEnv p m (pushN n q s) := by
  induction n generalizing s with
  | zero => rfl
  | succ n ih => exact ih (push q s)

/-- A meaning looks at neither the pins nor the buffer (its operands are the decoded unit's) and leaves both as they are. -/
theorem exec_withEnv (i : Instr) (p : Pins) (m : Memory) (s : State) :
    exec i (withEnv p m s) = mapNext (withEnv p m) (exec i s) := by
  cases hi : i.isHeader with
  | true =>
    cases i with
    | hdr =>
      rw [exec_hdr, exec_hdr]
      simp only [mapNext_ite]
      rfl
    | _ => simp [Instr.isHeader] at hi
  | false =>
    have e1 : pushedPixel i (withEnv p m s) = pushedPixel i s := by cases i <;> rfl
    have e2 : pastUnit i (withEnv p m s) = withEnv p m (pastUnit i s) := by cases i <;> rfl
    rw [exec_opcode hi, exec_opcode hi, e1, e2, pushN_withEnv, mapNext_ite]
    rfl

/-- The frame of every meaning on the environment. -/
theorem exec_env {i : Instr} {s t : State} (h : exec i s = .next t) : t.pins = s.pins ∧ t.input = s.input := by
  have e := exec_withEnv i s.pins s.input s
  rw [show withEnv s.pins s.input s = s from rfl, h] at e
  rw [Host.Outcome.next.inj e]
  exact ⟨rfl, rfl⟩

end Sys2Proof.Machine
end

