-- ==== Sys2Proof/Laws/PerInstr.lean ====
section
/-! SUPPORT. Statements made for every instruction, one lemma per constructor. -/

namespace Sys2Proof.Laws.EncodedLength

/-- The encoding of a unit is as long as R37 says the unit is. -/
def Statement (i : Instr) : Prop := (encode i).length = unitLength i

theorem hdr (m w h : Word32) (c cs : Byte) : Statement (.hdr m w h c cs) := rfl
theorem rgb (r g b : Byte) : Statement (.rgb r g b) := rfl
theorem rgba (r g b a : Byte) : Statement (.rgba r g b a) := rfl
theorem index (idx : BitVec 6) : Statement (.index idx) := rfl
theorem diff (fr fg fb : BitVec 2) : Statement (.diff fr fg fb) := rfl
theorem luma (fg : BitVec 6) (fro fbo : BitVec 4) : Statement (.luma fg fro fbo) := rfl
theorem run (n : BitVec 6) : Statement (.run n) := rfl

end Sys2Proof.Laws.EncodedLength
end

