-- ==== Sys2Proof/Laws/Step.lean ====
section
/-! SUPPORT. What a step can do, said once. -/

namespace Sys2Proof.Machine

/-- The bytes at the cursor are always a legal unit that is no header (R47, R60). -/
theorem fetchOpcode_ok (s : State) :
    ∃ i rest, fetchOpcode s = .ok (i, rest) ∧ i.isHeader = false ∧ i.wellFormed = true := by
  have dead : ∀ tag : Byte, dispatch tag ≠ .unknown := by decide
  obtain ⟨i, rest, h⟩ : ∃ i rest, fetchOpcode s = .ok (i, rest) := by
    rw [fetchOpcode_eq]
    cases h : dispatch (latch s s.pc) with
    | unknown => exact absurd h (dead _)
    | _ => exact ⟨_, _, rfl⟩
  exact ⟨i, rest, h, decodeOpcode_legal h⟩

/-- Which states take which step (R11), as conditions on the registers. -/
theorem action_cases (s : State) :
    (s.pins.rst = true ∧ action s = .reset) ∨
    (s.pins.rst = false ∧
      ((s.fsm = .idle ∨ s.fsm = .done ∨ s.fsm = .error) ∧
          (s.pins.start = true ∧ action s = .start ∨ s.pins.start = false ∧ action s = .quiet) ∨
        s.fsm = .header ∧ (s.pc = 0 ∧ action s = .hdr ∨ s.pc ≠ 0 ∧ action s = .stuck) ∨
        s.fsm = .dispatch ∧ (s.pc = s.len ∧ action s = .eos ∨ s.pc < s.len ∧ action s = .opcode ∨
          s.len < s.pc ∧ action s = .stuck) ∨
        s.fsm = .validate ∧ action s = .validate)) := by
  unfold action
  cases hr : s.pins.rst
  · cases hf : s.fsm <;> cases hs : s.pins.start <;> simp
    all_goals first
      | (by_cases h : s.pc = 0 <;> simp [h])
      | (rcases Nat.lt_trichotomy s.pc s.len with h | h | h
         · simp [h, Nat.ne_of_lt h]
         · simp [h]
         · simp [h, Nat.ne_of_gt h, Nat.not_lt_of_gt h])
  · simp

/-- Everything a step that answers a next state can do. -/
theorem step_cases {s t : State} (h : step s = .next t) :
    (action s = .reset ∧ t = resetStep s) ∨
    (action s = .start ∧ t = startStep s) ∨
    (action s = .quiet ∧ t = s) ∨
    (action s = .hdr ∧ ∃ m w h c cs, exec (.hdr m w h c cs) s = .next t) ∨
    (action s = .eos ∧ t = eosStep s) ∨
    (action s = .opcode ∧ ∃ i, i.isHeader = false ∧ i.wellFormed = true ∧ exec i s = .next t) ∨
    (action s = .validate ∧ validateStep s = .next t) := by
  unfold step at h
  cases ha : action s <;> simp only [ha, Host.Outcome.next.injEq, reduceCtorEq] at h
  case reset => exact .inl ⟨rfl, h.symm⟩
  case start => exact .inr (.inl ⟨rfl, h.symm⟩)
  case quiet => exact .inr (.inr (.inl ⟨rfl, h.symm⟩))
  case hdr =>
    rw [fetchHeader_eq] at h
    exact .inr (.inr (.inr (.inl ⟨rfl, _, _, _, _, _, h⟩)))
  case eos => exact .inr (.inr (.inr (.inr (.inl ⟨rfl, h.symm⟩))))
  case opcode =>
    obtain ⟨i, rest, hf, hi, hw⟩ := fetchOpcode_ok s
    rw [hf] at h
    exact .inr (.inr (.inr (.inr (.inr (.inl ⟨rfl, i, hi, hw, h⟩)))))
  case validate => exact .inr (.inr (.inr (.inr (.inr (.inr ⟨rfl, h⟩)))))

/-- Everything an opcode that is run can do: it pushes past the unit, or it runs off the end of the buffer. -/
theorem exec_opcode_cases {i : Instr} (hi : i.isHeader = false) {s t : State} (h : exec i s = .next t) :
    (s.pc + unitLength i ≤ s.len ∧ t = pushN (pushes i) (pushedPixel i s) (pastUnit i s)) ∨
    (s.len < s.pc + unitLength i ∧ t = { s with
      pc := if s.pc < s.len then s.pc + 1 else s.pc, fsm := .error, errCode := 1 }) := by
  rw [exec_opcode hi] at h
  split at h
  · exact .inl ⟨‹_›, (Host.Outcome.next.inj h).symm⟩
  · exact .inr ⟨by omega, (Host.Outcome.next.inj h).symm⟩

/-- A push of at least one pixel, its fields at once. -/
theorem pushN_pos {n : Nat} (hn : 0 < n) (p : Pixel) (s : State) :
    pushN n p s = { s with
      out := s.out ++ List.replicate n (outPixel s.channels p)
      pixCount := s.pixCount + n
      prev := effective s.channels p
      cache := writeCache s.cache (slotIndex (effective s.channels p)) (effective s.channels p) } := by
  obtain ⟨k, rfl⟩ : ∃ k, n = k + 1 := ⟨n - 1, by omega⟩
  exact pushN_succ_eq k p s

/-- Everything VALIDATE can do (R77). -/
theorem validateStep_cases {s t : State} (h : validateStep s = .next t) :
    ((expectedPixels s = 0 ∨ s.pixCount ≠ expectedPixels s) ∧ t = { s with fsm := .error, errCode := 6 }) ∨
    (expectedPixels s ≠ 0 ∧ s.pixCount = expectedPixels s ∧ s.malformed = true ∧
      t = { s with fsm := .error, errCode := 7 }) ∨
    (expectedPixels s ≠ 0 ∧ s.pixCount = expectedPixels s ∧ s.malformed = false ∧ t = { s with fsm := .done }) := by
  unfold validateStep at h
  split at h
  · exact .inl ⟨.inl ‹_›, (Host.Outcome.next.inj h).symm⟩
  split at h
  · exact .inl ⟨.inr ‹_›, (Host.Outcome.next.inj h).symm⟩
  split at h
  · exact .inr (.inl ⟨‹_›, by omega, ‹_›, (Host.Outcome.next.inj h).symm⟩)
  · rename_i hm
    exact .inr (.inr ⟨‹_›, by omega, by simpa using hm, (Host.Outcome.next.inj h).symm⟩)

/-- VALIDATE looks at neither the pins nor the buffer. -/
theorem validateStep_withEnv (p : Pins) (m : Memory) (s : State) :
    validateStep (withEnv p m s) = mapNext (withEnv p m) (validateStep s) := by
  simp only [validateStep, mapNext_ite]
  rfl

/-- A run whose first step answers a state goes on from it. -/
theorem run_of_next {M : Host.Core} {k : Nat} {s t : M.State} (h : M.step s = .next t) :
    M.run (k + 1) s = M.run k t := by
  simp only [Host.Core.run, h]

/-- A run whose first step faults ends in that fault. -/
theorem run_of_fault {M : Host.Core} {k : Nat} {s : M.State} {r : M.Fault} (h : M.step s = .fault r) :
    M.run (k + 1) s = .fault r := by
  simp only [Host.Core.run, h]

/-- A run whose first step is refused ends in that refusal. -/
theorem run_of_refused {M : Host.Core} {k : Nat} {s : M.State} {r : M.Refusal} (h : M.step s = .refused r) :
    M.run (k + 1) s = .refused r := by
  simp only [Host.Core.run, h]

/-- A run of one step more of this machine, by what its first step answers. -/
theorem run_succ (k : Nat) (s : State) : Host.Core.run Sys2Proof.core (k + 1) s =
    match step s with
    | .next t => Host.Core.run Sys2Proof.core k t
    | .fault r => .fault r
    | .refused r => .refused r := by
  cases h : step s with
  | next t => exact run_of_next (M := Sys2Proof.core) h
  | fault r => exact run_of_fault (M := Sys2Proof.core) h
  | refused r => exact run_of_refused (M := Sys2Proof.core) h

/-- The step from HEADER, its unit written out. -/
theorem step_of_hdr {s : State} (h : action s = .hdr) : step s = exec (.hdr
    (bigEndian32 (latch s s.pc) (latch s (s.pc + 1)) (latch s (s.pc + 2)) (latch s (s.pc + 3)))
    (bigEndian32 (latch s (s.pc + 4)) (latch s (s.pc + 5)) (latch s (s.pc + 6)) (latch s (s.pc + 7)))
    (bigEndian32 (latch s (s.pc + 8)) (latch s (s.pc + 9)) (latch s (s.pc + 10)) (latch s (s.pc + 11)))
    (latch s (s.pc + 12)) (latch s (s.pc + 13))) s := by
  unfold step
  rw [h, fetchHeader_eq]

/-- The opcode step, once its unit is known. -/
theorem step_of_opcode {s : State} (h : action s = .opcode) {i : Instr} {rest : List Byte}
    (hf : fetchOpcode s = .ok (i, rest)) : step s = exec i s := by
  unfold step
  rw [h, hf]

end Sys2Proof.Machine
end

