-- ==== Sys2Proof/Tests/Slice0.lean ====
section
/-! SUPPORT. The model's own tests, each from a layout or a vector of the spec that its comment names, and a witness for every
obligation that has hypotheses. -/

namespace Sys2Proof.Tests

open Sys2Proof Sys2Proof.Machine

/-! ### Helpers -/

/-- The next state of an outcome, if it is one. -/
def after : Result → Option State
  | .next s => some s
  | .fault _ => none
  | .refused _ => none

/-- A machine in DISPATCH with an opcode stream from address 14 on and the given pixel registers. -/
def loopState (ch : BitVec 3) (prev : Pixel) (slots : List (BitVec 6 × Pixel)) (bytes : List Byte) : State :=
  { State.reset with
    fsm := .dispatch
    pc := 14
    channels := ch
    prev := prev
    cache := slots.foldl (fun c e => writeCache c e.1 e.2) emptyCache
    len := 14 + bytes.length
    input := Memory.writeBytes [] 14 bytes }

/-- A machine after START on a whole stream. -/
def headerState (bytes : List Byte) : State :=
  { State.reset with
    fsm := .header
    len := bytes.length
    input := Memory.writeBytes [] 0 bytes }

/-- A machine in VALIDATE with a size, a count and the flag. -/
def validateState (w h : Word32) (ch : BitVec 3) (n : Nat) (malformed : Bool) : State :=
  { State.reset with
    fsm := .validate
    pc := 20
    len := 20
    width := w
    height := h
    channels := ch
    pixCount := n
    malformed := malformed }

/-- What one step leaves: the pixels emitted, the previous pixel, one cache slot, the cursor and the flag. -/
def effect (slot : BitVec 6) (s : State) : Option (List OutPixel × Pixel × Pixel × Nat × Bool) :=
  (after (step s)).map fun t => (t.out, t.prev, readCache t.cache slot, t.pc, t.malformed)

/-- How one step ends: the control state, the error code and the cursor. -/
def ending (s : State) : Option (Fsm × BitVec 4 × Nat) :=
  (after (step s)).map fun t => (t.fsm, t.errCode, t.pc)

/-- A header of the given size, channel count and colour space (R38). -/
def header (w h : Byte) (c cs : Byte) : List Byte := [0x71, 0x6F, 0x69, 0x66, 0, 0, 0, w, 0, 0, 0, h, c, cs]

/-! ### WellFormed refuses an ill-formed term (R38, R45) -/

theorem test_wf_magic : (Instr.hdr 0x716F6967 1 1 4 0).wellFormed = false := by decide
theorem test_wf_channels : (Instr.hdr 0x716F6966 1 1 5 0).wellFormed = false := by decide
/-- V44: the whole byte is compared. -/
theorem test_wf_channels_whole_byte : (Instr.hdr 0x716F6966 1 1 0x83 0).wellFormed = false := by decide
theorem test_wf_colorspace : (Instr.hdr 0x716F6966 1 1 4 2).wellFormed = false := by decide
theorem test_wf_run : (Instr.run 62).wellFormed = false ∧ (Instr.run 63).wellFormed = false := by decide
theorem test_wf_legal : (Instr.hdr 0x716F6966 1 1 4 0).wellFormed = true ∧ (Instr.run 61).wellFormed = true := by decide

/-! ### Decoding: words written out from the layouts (R38, R40 to R45, R50) -/

/-- Program P1: `HDR 2, 2, 4, 0`. -/
theorem test_decode_hdr : decodeHeader
    [0b01110001, 0b01101111, 0b01101001, 0b01100110, 0, 0, 0, 2, 0, 0, 0, 2, 0b00000100, 0b00000000] =
    .ok (.hdr 0x716F6966 2 2 4 0, []) := by rfl
/-- Program P1: `RGB 10, 20, 30`. -/
theorem test_decode_rgb : decodeOpcode [0b11111110, 0b00001010, 0b00010100, 0b00011110] = .ok (.rgb 10 20 30, []) := by rfl
/-- Program P3: `RGBA 1, 2, 3, 4`. -/
theorem test_decode_rgba : decodeOpcode [0b11111111, 0b00000001, 0b00000010, 0b00000011, 0b00000100, 0b11111101] =
    .ok (.rgba 1 2 3 4, [0xFD]) := by rfl
/-- Vector V3: `0x3F` is `INDEX 63`. -/
theorem test_decode_index : decodeOpcode [0b00111111] = .ok (.index 63, []) := by rfl
/-- Program P1: `0x72` is `DIFF +1, -2, 0`, fields 3, 0, 2. -/
theorem test_decode_diff : decodeOpcode [0b01110010] = .ok (.diff 3 0 2, []) := by rfl
/-- Program P1: `0xA5 0x5F` is `LUMA +5, -3, +7`, fields 37, 5, 15. -/
theorem test_decode_luma : decodeOpcode [0b10100101, 0b01011111] = .ok (.luma 37 5 15, []) := by rfl
/-- Program P3: `0xC2` is `RUN 3`, field 2. -/
theorem test_decode_run : decodeOpcode [0b11000010] = .ok (.run 2, []) := by rfl
/-- Vectors V7, V11 and V27: a unit cut short is rejected by name. -/
theorem test_decode_truncated :
    decodeOpcode [0xFE, 0x0A, 0x14] = .error .truncated ∧ decodeOpcode [0xFF, 1, 2, 3] = .error .truncated ∧
    decodeOpcode [0xA0] = .error .truncated ∧ decodeHeader [0x71, 0x6F, 0x69] = .error .truncated := by
  refine ⟨rfl, rfl, rfl, rfl⟩
/-- Bit 0 of a table word is the least significant bit of its first byte. -/
theorem test_table_word : decodeTableWord 32 0x1E140AFE = some (.rgb 10 20 30) ∧ decodeTableWord 8 0xFD = some (.run 61) ∧
    decodeTableWord 112 0x0004020000000200000066696F71 = some (.hdr 0x716F6966 2 2 4 0) := by decide

/-! ### One step on a small state (part 2 of the vectors) -/

/-- V34 and V44. -/
theorem test_hdr :
    ending (headerState (header 2 2 4 0)) = some (.dispatch, 0, 14) ∧
    (after (step (headerState (header 2 2 4 0)))).map
      (fun t => (t.width, t.height, t.channels, t.colorspace)) = some (2, 2, 4, 0) ∧
    ending (headerState (header 1 1 0x83 0)) = some (.error, 3, 13) := by decide
/-- V48: sizes are unsigned 32-bit numbers, and colour space 1 is carried through. -/
theorem test_hdr_big : (after (step (headerState
      [0x71, 0x6F, 0x69, 0x66, 0x12, 0x34, 0x56, 0x78, 0xFF, 0xFF, 0xFF, 0xFF, 3, 1]))).map
    (fun t => (t.width, t.height, t.channels, t.colorspace)) = some (0x12345678, 0xFFFFFFFF, 3, 1) := by decide
/-- V4: the alpha of the previous pixel persists. -/
theorem test_rgb_alpha_persists : effect 35 (loopState 4 ⟨9, 9, 9, 77⟩ [] [0xFE, 0x0A, 0x14, 0x1E]) =
    some ([.rgba 10 20 30 77], ⟨10, 20, 30, 77⟩, ⟨10, 20, 30, 77⟩, 18, false) := by decide
/-- V6 and V7. -/
theorem test_rgb_three_channels : effect 9 (loopState 3 ⟨9, 9, 9, 255⟩ [] [0xFE, 0x0A, 0x14, 0x1E]) =
      some ([.rgb 10 20 30], ⟨10, 20, 30, 255⟩, ⟨10, 20, 30, 255⟩, 18, false) ∧
    ending (loopState 4 ⟨9, 9, 9, 77⟩ [] [0xFE, 0x0A, 0x14]) = some (.error, 1, 15) := by decide
/-- V8. -/
theorem test_rgba : effect 14 (loopState 4 ⟨9, 9, 9, 77⟩ [] [0xFF, 1, 2, 3, 4]) =
    some ([.rgba 1 2 3 4], ⟨1, 2, 3, 4⟩, ⟨1, 2, 3, 4⟩, 19, false) := by decide
/-- V10 and V11: in a three-channel image the flag is set, and only by a whole unit. -/
theorem test_rgba_three_channels : effect 23 (loopState 3 ⟨9, 9, 9, 255⟩ [] [0xFF, 1, 2, 3, 4]) =
      some ([.rgb 1 2 3], ⟨1, 2, 3, 255⟩, ⟨1, 2, 3, 255⟩, 19, true) ∧
    effect 23 (loopState 3 ⟨9, 9, 9, 255⟩ [] [0xFF, 1, 2, 3]) =
      some ([], ⟨9, 9, 9, 255⟩, ⟨0, 0, 0, 0⟩, 15, false) := by decide
/-- V12 and V13: the push after an INDEX of a never-written slot. -/
theorem test_index_unwritten : effect 0 (loopState 4 ⟨9, 9, 9, 9⟩ [(0, ⟨64, 0, 0, 0⟩)] [0x05]) =
      some ([.rgba 0 0 0 0], ⟨0, 0, 0, 0⟩, ⟨0, 0, 0, 0⟩, 15, false) ∧
    effect 53 (loopState 3 ⟨9, 9, 9, 255⟩ [] [0x05]) =
      some ([.rgb 0 0 0], ⟨0, 0, 0, 255⟩, ⟨0, 0, 0, 255⟩, 15, false) := by decide
/-- V16: the push writes the slot of the pixel's own hash. -/
theorem test_index_other_slot : effect 2 (loopState 4 ⟨0, 0, 0, 255⟩ [(63, ⟨5, 5, 5, 5⟩)] [0x3F]) =
    some ([.rgba 5 5 5 5], ⟨5, 5, 5, 5⟩, ⟨5, 5, 5, 5⟩, 15, false) := by decide
/-- V19: both wraps in one unit, alpha kept. -/
theorem test_diff_wraps : effect 0 (loopState 4 ⟨0, 255, 7, 200⟩ [] [0x47]) =
    some ([.rgba 254 254 8 200], ⟨254, 254, 8, 200⟩, ⟨254, 254, 8, 200⟩, 15, false) := by decide
/-- V20: three different deltas. -/
theorem test_diff_three_channels : effect 40 (loopState 3 ⟨1, 0, 255, 255⟩ [] [0x43]) =
    some ([.rgb 255 254 0], ⟨255, 254, 0, 255⟩, ⟨255, 254, 0, 255⟩, 15, false) := by decide
/-- V26: both nibbles apart. -/
theorem test_luma_nibbles : effect 63 (loopState 4 ⟨0, 0, 0, 255⟩ [] [0x9F, 0x0F]) =
    some ([.rgba 247 255 6 255], ⟨247, 255, 6, 255⟩, ⟨247, 255, 6, 255⟩, 16, false) := by decide
/-- V24 and V27. -/
theorem test_luma_lowest : effect 36 (loopState 4 ⟨10, 20, 30, 128⟩ [] [0x80, 0x00]) =
      some ([.rgba 226 244 246 128], ⟨226, 244, 246, 128⟩, ⟨226, 244, 246, 128⟩, 16, false) ∧
    ending (loopState 4 ⟨9, 9, 9, 255⟩ [] [0xA0]) = some (.error, 1, 15) := by decide
/-- V28: a RUN before any pixel writes the start value to its slot. -/
theorem test_run_first : effect 53 (loopState 4 ⟨0, 0, 0, 255⟩ [] [0xC0]) =
    some ([.rgba 0 0 0 255], ⟨0, 0, 0, 255⟩, ⟨0, 0, 0, 255⟩, 15, false) := by decide
/-- V30: the longest run. -/
theorem test_run_longest : effect 9 (loopState 3 ⟨10, 20, 30, 255⟩ [(9, ⟨10, 20, 30, 255⟩)] [0xFD]) =
    some (List.replicate 62 (.rgb 10 20 30), ⟨10, 20, 30, 255⟩, ⟨10, 20, 30, 255⟩, 15, false) := by decide
/-- V32. -/
theorem test_hash : slotIndex ⟨10, 20, 30, 77⟩ = 35 ∧ slotIndex ⟨42, 1, 0, 255⟩ = 56 ∧
    slotIndex ⟨255, 255, 255, 255⟩ = 38 ∧ slotIndex ⟨0, 0, 0, 1⟩ = 11 := by decide
/-- V49: the product is exact, so the count and not the zero area is what fails. V50: a zero area fails although the counts agree. V55:
the length check comes first. V56: then the flag. -/
theorem test_validate :
    ending (validateState 65536 65536 4 0 false) = some (.error, 6, 20) ∧
    ending (validateState 0 5 4 0 false) = some (.error, 6, 20) ∧
    ending (validateState 2 1 3 1 true) = some (.error, 6, 20) ∧
    ending (validateState 1 1 3 1 true) = some (.error, 7, 20) ∧
    ending (validateState 1 1 4 1 false) = some (.done, 0, 20) := by decide
/-- V35 to V46: what each bad header raises, and where. -/
theorem test_hdr_errors :
    ending (headerState []) = some (.error, 1, 0) ∧
    ending (headerState [0x51, 0x4F, 0x49, 0x46, 0, 0, 0, 1, 0, 0, 0, 1, 4, 0]) = some (.error, 2, 4) ∧
    ending (headerState ((header 1 1 4 0).take 11)) = some (.error, 1, 8) ∧
    ending (headerState ((header 1 1 5 0).take 13)) = some (.error, 3, 13) ∧
    ending (headerState ((header 1 1 4 0).take 13)) = some (.error, 1, 13) ∧
    ending (headerState (header 1 1 4 2)) = some (.error, 4, 14) := by decide
/-- R98, R99: `rst` before `start`. -/
theorem test_reset_before_start : ending { State.reset with fsm := .done, pc := 7, pins := ⟨true, true, 9⟩ } =
      some (.idle, 0, 0) ∧
    (after (step { State.reset with fsm := .error, errCode := 6, pins := ⟨false, true, 9⟩ })).map
      (fun t => (t.fsm, t.len, t.errCode)) = some (.header, 9, 0) := by decide
/-- A table word placed after reset is what the next step runs (log 10). -/
theorem test_withFetchWord : ending (State.reset.withFetchWord 8 0xFD) = some (.dispatch, 0, 15) ∧
    ending (State.reset.withFetchWord 112 0x0004020000000200000066696F71) = some (.dispatch, 0, 14) := by decide
/-- U7, R35: a byte of the session's stream may not be changed, and one that is put there unchanged is no change. -/
theorem test_host_keeps_the_stream :
    hostAct (.putByte 14 1) (loopState 4 ⟨0, 0, 0, 255⟩ [] [0xC0]) = .refused .inputChangedInSession ∧
    (after (hostAct (.putByte 15 1) (loopState 4 ⟨0, 0, 0, 255⟩ [] [0xC0]))).isSome = true ∧
    hostAct (.presentFile [1]) (loopState 4 ⟨0, 0, 0, 255⟩ [] [0xC0]) = .refused .inputChangedInSession :=
  ⟨rfl, by decide, rfl⟩

/-! ### Witnesses: states that meet the hypotheses of each obligation -/

/-- Vector V54, a whole session: `HDR 1, 1, 4, 0`, `RUN 1`. -/
def v54 : List Byte := header 1 1 4 0 ++ [0xC0]

/-- V54 after START. -/
def v54Header : State := headerState v54

/-- V54 after HDR. -/
def v54Dispatch : State := { v54Header with fsm := .dispatch, pc := 14, width := 1, height := 1, channels := 4 }

/-- V54 after its RUN, at the end of the input. -/
def v54Pushed : State :=
  { v54Dispatch with
    pc := 15
    cache := writeCache emptyCache 53 ⟨0, 0, 0, 255⟩
    pixCount := 1
    out := [.rgba 0 0 0 255] }

/-- V54 in VALIDATE. -/
def v54Validate : State := { v54Pushed with fsm := .validate }

/-- V54 at its end. -/
def v54Done : State := { v54Pushed with fsm := .done }

/-- A stream of two units after the header, one of them run: a state of the loop with a pixel produced and input left. -/
def loopAfterPixel : State :=
  { v54Pushed with len := 16, input := Memory.writeBytes [] 0 (header 1 1 4 0 ++ [0xC0, 0xFD]) }

/-- The header of V54 alone, in the loop with nothing left to read. -/
def loopAtEnd : State := { v54Dispatch with len := 14 }

/-- A session whose count is wrong, in VALIDATE. -/
def shortValidate : State := { v54Validate with height := 2 }

/-- A session of one RGBA in a three-channel image, in VALIDATE (V56). -/
def v56Validate : State :=
  { headerState (header 1 1 3 0 ++ [0xFF, 1, 2, 3, 4]) with
    fsm := .validate
    pc := 19
    width := 1
    height := 1
    channels := 3
    prev := ⟨1, 2, 3, 255⟩
    cache := writeCache emptyCache 23 ⟨1, 2, 3, 255⟩
    pixCount := 1
    malformed := true
    out := [.rgb 1 2 3] }

/-- V54 after HDR with another opcode stream. -/
def loopStream (bytes : List Byte) : State :=
  { v54Dispatch with len := 14 + bytes.length, input := Memory.writeBytes [] 0 (header 1 1 4 0 ++ bytes) }

/-- An RGB cut short, in the loop. -/
def loopCutShort : State := loopStream [0xFE, 9]

/-- V54 in the loop with the `len` port still holding its length. -/
def v54Held : State := { v54Dispatch with pins := ⟨false, true, 15⟩ }

theorem witness_inv_loopStream (bytes : List Byte) : Inv (loopStream bytes) := by
  have h : Inv v54Dispatch := by constructor <;> first | decide | (unfold legalChannels; decide)
  exact { h with
    input_wf := Memory.writeBytes_wf rfl _ _, pc_le := Nat.le_add_right 14 bytes.length, exhausted := by rintro (h | h) <;> cases h }
theorem witness_inv_headerState (bytes : List Byte) : Inv (headerState bytes) := by
  have h : Inv (headerState []) := by constructor <;> first | decide | (unfold legalChannels; decide)
  exact { h with
    input_wf := Memory.writeBytes_wf rfl _ _, pc_le := Nat.zero_le bytes.length, exhausted := by rintro (h | h) <;> cases h }
theorem witness_inv_header : Inv v54Header := by
  constructor <;> first | decide | (unfold legalChannels; decide)
theorem witness_inv_dispatch : Inv v54Dispatch := by
  constructor <;> first | decide | (unfold legalChannels; decide)
theorem witness_inv_loop : Inv loopAfterPixel := by
  constructor <;> first | decide | (unfold legalChannels; decide)
theorem witness_inv_validate : Inv v54Validate := by
  constructor <;> first | decide | (unfold legalChannels; decide)
theorem witness_inv_done : Inv v54Done := by
  constructor <;> first | decide | (unfold legalChannels; decide)
theorem witness_inv_short : Inv shortValidate := by
  constructor <;> first | decide | (unfold legalChannels; decide)
theorem witness_inv_flagged : Inv v56Validate := by
  constructor <;> first | decide | (unfold legalChannels; decide)

/-- The boundaries of every range of the tag map. -/
theorem witness_DispatchFollowsTagMap :
    (0x3F#8).toNat ≤ 0x3F ∧ (0x40 ≤ (0x40#8).toNat ∧ (0x7F#8).toNat ≤ 0x7F) ∧
    (0x80 ≤ (0x80#8).toNat ∧ (0xBF#8).toNat ≤ 0xBF) ∧ (0xC0 ≤ (0xC0#8).toNat ∧ (0xFD#8).toNat ≤ 0xFD) ∧
    (0xFE#8).toNat = 0xFE ∧ (0xFF#8).toNat = 0xFF := by decide

theorem witness_DecodeInvertsEncodeForOpcodes :
    ∀ i ∈ [Instr.rgb 1 2 3, .rgba 1 2 3 4, .index 63, .diff 3 0 2, .luma 63 0 15, .run 61],
      i.isHeader = false ∧ i.wellFormed = true := by decide

theorem witness_DecodeInvertsEncodeForHeaders : (Instr.hdr 0x716F6967 1 0 9 7).isHeader = true := by decide

theorem witness_EncodeInvertsDecode :
    decodeOpcode [0xFD, 9] = .ok (.run 61, [9]) ∧
    decodeHeader (header 2 3 5 7 ++ [9]) = .ok (.hdr 0x716F6966 2 3 5 7, [9]) := ⟨rfl, rfl⟩

/-- Each length, whole and one byte short. -/
theorem witness_UnitLengthIsAFunctionOfTheTag :
    (4 ≤ [0xFE#8, 1, 2, 3].length ∧ [0xFE#8, 1, 2].length < 4) ∧
    (5 ≤ [0xFF#8, 1, 2, 3, 4].length ∧ [0xFF#8, 1, 2, 3].length < 5) ∧
    ((0xBF#8).extractLsb' 6 2 = 2 ∧ 2 ≤ [0xBF#8, 1].length ∧ [0xBF#8].length < 2) ∧
    ((0xFD#8).extractLsb' 6 2 ≠ 2 ∧ 1 ≤ [0xFD#8].length) := by decide

theorem witness_StepRunsTheDecodedOpcode :
    v54Dispatch.pins.rst = false ∧ v54Dispatch.fsm = .dispatch ∧ v54Dispatch.pc < v54Dispatch.len ∧
    decodeOpcode (memRead v54Dispatch.input v54Dispatch.pc (v54Dispatch.len - v54Dispatch.pc)) = .ok (.run 0, []) :=
  ⟨rfl, rfl, by decide, rfl⟩

theorem witness_StepRunsTheDecodedHeader :
    v54Header.pins.rst = false ∧ v54Header.fsm = .header ∧ v54Header.pc = 0 ∧
    decodeHeader (memRead v54Header.input 0 v54Header.len) = .ok (.hdr 0x716F6966 1 1 4 0, [0xC0]) :=
  ⟨rfl, rfl, rfl, rfl⟩

theorem witness_HeaderStepIsTheStreamPseudocode :
    v54Header.pins.rst = false ∧ v54Header.fsm = .header ∧ v54Header.pc = 0 := by decide

theorem witness_OpcodeStepIsTheStreamPseudocode :
    v54Dispatch.pins.rst = false ∧ v54Dispatch.fsm = .dispatch ∧ v54Dispatch.pc < v54Dispatch.len := by decide

theorem witness_PlacedTableWordRunsNext :
    State.reset.input.wf = true ∧ decodeTableWord 32 0x1E140AFE = some (.rgb 10 20 30) ∧
    decodeTableWord 112 0x0004020000000200000066696F71 = some (.hdr 0x716F6966 2 2 4 0) := by decide

/-- One state with no byte left, one with three, one with four: on both sides of every bound. -/
theorem witness_CursorReadsAreAllOrNothing :
    (1 ≤ 3 ∧ v54Pushed.len - v54Pushed.pc < 1) ∧
    (let s := loopState 4 startPrev [] [0xFE, 1, 2]; s.len - s.pc < 4 ∧ 3 ≤ s.len - s.pc ∧ 1 ≤ s.len - s.pc) ∧
    (let s := loopState 4 startPrev [] [0xFE, 1, 2, 3]; 4 ≤ s.len - s.pc ∧ s.len - s.pc < 5) := by decide

theorem witness_HdrWritesTheHeaderRegisters :
    (Instr.hdr 0x716F6966 1 1 4 0).wellFormed = true ∧ v54Header.pc + 14 ≤ v54Header.len := by decide

theorem witness_startValues : StartValues v54Header :=
  ⟨rfl, rfl, rfl, rfl, rfl, rfl, by decide, rfl, rfl, rfl, rfl⟩

theorem witness_HeaderStepFromStartValues :
    v54Header.pins.rst = false ∧ v54Header.fsm = .header ∧ StartValues v54Header ∧ 14 ≤ v54Header.len ∧
    memRead v54Header.input 0 4 = [0x71, 0x6F, 0x69, 0x66] ∧
    (v54Header.input.read 12 = 3 ∨ v54Header.input.read 12 = 4) ∧
    (v54Header.input.read 13 = 0 ∨ v54Header.input.read 13 = 1) :=
  ⟨rfl, rfl, witness_startValues, by decide, by decide, by decide, by decide⟩

/-- Whole, and cut short at either end of the range. -/
theorem witness_RgbPushesWithPreviousAlpha :
    (let s := loopState 4 startPrev [] [0xFE, 1, 2, 3]; s.pc + 4 ≤ s.len) ∧
    (let s := loopState 4 startPrev [] [0xFE, 1, 2]; s.pc < s.len ∧ s.len < s.pc + 4) ∧
    (let s := loopState 4 startPrev [] [0xFE]; s.pc < s.len ∧ s.len < s.pc + 4) := by decide

theorem witness_RgbaPushesAndFlagsThreeChannels :
    (let s := loopState 3 startPrev [] [0xFF, 1, 2, 3, 4]; s.pc + 5 ≤ s.len ∧ s.channels = 3) ∧
    (let s := loopState 4 startPrev [] [0xFF, 1, 2, 3, 4]; s.pc + 5 ≤ s.len ∧ s.channels ≠ 3) ∧
    (let s := loopState 4 startPrev [] [0xFF, 1, 2, 3]; s.pc < s.len ∧ s.len < s.pc + 5) ∧
    (let s := loopState 4 startPrev [] [0xFF]; s.pc < s.len ∧ s.len < s.pc + 5) := by decide

theorem witness_IndexPushesItsSlot : v54Dispatch.pc + 1 ≤ v54Dispatch.len := by decide

theorem witness_DiffAddsBiasedFieldsModulo256 : v54Dispatch.pc + 1 ≤ v54Dispatch.len := by decide

theorem witness_LumaAddsGreenRelativeDeltasModulo256 :
    (let s := loopState 4 startPrev [] [0xA0, 1]; s.pc + 2 ≤ s.len) ∧
    (let s := loopState 4 startPrev [] [0xA0]; s.pc < s.len ∧ s.len < s.pc + 2) := by decide

theorem witness_RunRepeatsThePreviousPixel :
    (61#6).toNat ≤ 61 ∧ v54Dispatch.pc + 1 ≤ v54Dispatch.len := by decide

theorem witness_IndexSeesThePrecedingPush :
    (let s := loopState 4 startPrev [] [0xFE, 10, 20, 30, 9]
     (Instr.rgb 10 20 30).isHeader = false ∧ s.pc + unitLength (.rgb 10 20 30) + 1 ≤ s.len) := by decide

theorem witness_IndexOfUnwrittenSlotWritesTheZeroPixelsSlot :
    (let s := loopState 4 startPrev [(9, ⟨10, 20, 30, 255⟩)] [0x05]
     s.pc + 1 ≤ s.len ∧ readCache s.cache 5 = ⟨0, 0, 0, 0⟩ ∧ s.channels = 4) ∧
    (let s := loopState 3 startPrev [(9, ⟨10, 20, 30, 255⟩)] [0x05]
     s.pc + 1 ≤ s.len ∧ readCache s.cache 5 = ⟨0, 0, 0, 0⟩ ∧ s.channels = 3) := by decide

theorem witness_RunChangesTheCacheOnlyBeforeAnyPixel :
    (Inv loopAfterPixel ∧ loopAfterPixel.fsm = .dispatch ∧ loopAfterPixel.pc < loopAfterPixel.len ∧
      (61#6).toNat ≤ 61 ∧ loopAfterPixel.out ≠ []) ∧
    (Inv v54Dispatch ∧ v54Dispatch.fsm = .dispatch ∧ v54Dispatch.pc < v54Dispatch.len ∧ v54Dispatch.out = []) :=
  ⟨⟨witness_inv_loop, by decide⟩, witness_inv_dispatch, by decide⟩

/-- Each clause at the lengths where clauses meet. -/
theorem witness_HeaderErrorsInAddressOrder :
    (let s := headerState [0x71, 0x6F, 0x69]; s.pins.rst = false ∧ s.fsm = .header ∧ s.pc = 0 ∧ s.len < 4) ∧
    (let s := headerState [0x71, 0x6F, 0x69, 0x67]; 4 ≤ s.len ∧ memRead s.input 0 4 ≠ [0x71, 0x6F, 0x69, 0x66]) ∧
    (∀ n ∈ [4, 7], let s := headerState ((header 1 1 4 0).take n)
      memRead s.input 0 4 = [0x71, 0x6F, 0x69, 0x66] ∧ 4 ≤ s.len ∧ s.len < 8) ∧
    (∀ n ∈ [8, 11], let s := headerState ((header 1 1 4 0).take n)
      memRead s.input 0 4 = [0x71, 0x6F, 0x69, 0x66] ∧ 8 ≤ s.len ∧ s.len < 12) ∧
    (let s := headerState ((header 1 1 4 0).take 12)
     memRead s.input 0 4 = [0x71, 0x6F, 0x69, 0x66] ∧ s.len = 12) ∧
    (∀ c ∈ [2#8, 5#8], let s := headerState ((header 1 1 c 0).take 13)
      memRead s.input 0 4 = [0x71, 0x6F, 0x69, 0x66] ∧ 13 ≤ s.len ∧ s.input.read 12 ≠ 3 ∧ s.input.read 12 ≠ 4) ∧
    (let s := headerState ((header 1 1 3 0).take 13)
     memRead s.input 0 4 = [0x71, 0x6F, 0x69, 0x66] ∧ s.input.read 12 = 3 ∧ s.len = 13) ∧
    (let s := headerState (header 1 1 4 2)
     memRead s.input 0 4 = [0x71, 0x6F, 0x69, 0x66] ∧ s.input.read 12 = 4 ∧ 14 ≤ s.len ∧
      s.input.read 13 ≠ 0 ∧ s.input.read 13 ≠ 1) := by decide

/-- Each length, one byte short and whole. -/
theorem witness_OpcodeCutShortRaisesPastItsTag :
    (let s := loopState 4 startPrev [] [0xFE, 1, 2]
     s.pins.rst = false ∧ s.fsm = .dispatch ∧ s.pc < s.len ∧ s.input.read s.pc = 0xFE ∧ s.len < s.pc + 4) ∧
    (let s := loopState 4 startPrev [] [0xFF, 1, 2, 3]
     s.pc < s.len ∧ s.input.read s.pc = 0xFF ∧ s.len < s.pc + 5) ∧
    (let s := loopState 4 startPrev [] [0xBF]
     s.pc < s.len ∧ (s.input.read s.pc).extractLsb' 6 2 = 2 ∧ s.len < s.pc + 2) ∧
    (let s := loopState 4 startPrev [] [0xFF, 1, 2, 3, 4]
     s.pc < s.len ∧ s.input.read s.pc = 0xFF ∧ s.pc + 5 ≤ s.len) ∧
    (let s := loopState 4 startPrev [] [0x7F]; s.pc < s.len ∧ s.pc + 1 ≤ s.len) := by decide

/-- Every cause: each short read of HDR at both ends of its lengths, each wrong byte, each opcode cut short, and VALIDATE's checks. All the
states meet the invariant and are not in ERROR. -/
theorem witness_ErrorsFollowTheCauseTable :
    (∀ e ∈ [([], 1, 0), ([0x71, 0x6F, 0x69], 1, 0), ((header 1 1 4 0).take 4, 1, 4), ((header 1 1 4 0).take 7, 1, 4),
        ((header 1 1 4 0).take 8, 1, 8), ((header 1 1 4 0).take 11, 1, 8), ((header 1 1 4 0).take 12, 1, 12),
        ((header 1 1 4 0).take 13, 1, 13), ([0x71, 0x6F, 0x69, 0x67], 2, 4), ((header 1 1 5 0).take 13, 3, 13),
        (header 1 1 4 2, 4, 14)],
      ending (headerState e.1) = some (.error, e.2)) ∧
    (∀ bytes ∈ [[0xFE], [0xFE, 1, 2], [0xFF], [0xFF, 1, 2, 3], [0xBF]],
      ending (loopStream bytes) = some (.error, 1, 15)) ∧
    ending shortValidate = some (.error, 6, 15) ∧ ending v56Validate = some (.error, 7, 19) ∧
    (∀ bytes, Inv (headerState bytes) ∧ (headerState bytes).fsm ≠ .error) ∧
    (∀ bytes, Inv (loopStream bytes) ∧ (loopStream bytes).fsm ≠ .error) ∧ Inv shortValidate ∧ Inv v56Validate :=
  ⟨by decide, by decide, by decide, by decide, fun _ => ⟨witness_inv_headerState _, by simp [headerState]⟩,
    fun _ => ⟨witness_inv_loopStream _, by simp [loopStream, v54Dispatch]⟩, witness_inv_short, witness_inv_flagged⟩

theorem witness_ErrorEntryKeepsAllElse :
    ∃ t, step loopCutShort = .next t ∧ loopCutShort.fsm ≠ .error ∧ t.fsm = .error :=
  ⟨_, rfl, by decide, rfl⟩

theorem witness_CorruptStreamIsNeverRaised :
    ∃ t, step loopCutShort = .next t ∧ loopCutShort.errCode ≠ 5 :=
  ⟨_, rfl, by decide⟩

theorem witness_LoopEndsExactlyAtExhaustion :
    (loopAtEnd.pins.rst = false ∧ loopAtEnd.fsm = .dispatch ∧ loopAtEnd.pc = loopAtEnd.len) ∧
    (v54Dispatch.pins.rst = false ∧ v54Dispatch.fsm = .dispatch ∧ v54Dispatch.pc < v54Dispatch.len) := by decide

/-- The zero area with a count that agrees and one that does not, a wrong count, and the two outcomes of the flag. -/
theorem witness_ValidateChecksLengthThenShape :
    (let s := validateState 0 5 4 0 false; s.pins.rst = false ∧ s.fsm = .validate ∧ s.width.toNat * s.height.toNat = 0) ∧
    (let s := validateState 65536 65536 4 0 false; s.pixCount ≠ s.width.toNat * s.height.toNat) ∧
    (let s := validateState 1 1 3 1 true
     s.width.toNat * s.height.toNat ≠ 0 ∧ s.pixCount = s.width.toNat * s.height.toNat ∧ s.malformed = true) ∧
    (let s := validateState 1 1 3 1 false
     s.width.toNat * s.height.toNat ≠ 0 ∧ s.pixCount = s.width.toNat * s.height.toNat ∧ s.malformed = false) := by decide

theorem witness_PassedChecksDeliverTheImage :
    Inv v54Validate ∧ v54Validate.pins.rst = false ∧ v54Validate.fsm = .validate ∧
    0 < v54Validate.width.toNat * v54Validate.height.toNat ∧
    v54Validate.pixCount = v54Validate.width.toNat * v54Validate.height.toNat ∧ v54Validate.malformed = false :=
  ⟨witness_inv_validate, by decide⟩

theorem witness_ResultIsARowMajorGrid :
    (Inv v54Done ∧ v54Done.fsm = .done ∧ 0 < v54Done.height.toNat ∧ 0 < v54Done.width.toNat) ∧
    (Inv v54Validate ∧ v54Validate.fsm ≠ .done) :=
  ⟨⟨witness_inv_done, by decide⟩, witness_inv_validate, by decide⟩

theorem witness_RstLoadsTheResetValues :
    (let s : State := { v54Dispatch with pins := ⟨true, true, 3⟩ }; s.pins.rst = true) := by decide

/-- The three states in which START is taken. -/
theorem witness_StartSamplesLenAndLoadsTheStartValues :
    (∀ f ∈ [Fsm.idle, .done, .error], let s : State := { v54Done with fsm := f, pins := ⟨false, true, 21⟩ }
      s.pins.rst = false ∧ s.pins.start = true ∧ (s.fsm = .idle ∨ s.fsm = .done ∨ s.fsm = .error)) := by decide

theorem witness_StartAndLenAreIgnoredWhileBusy :
    (∀ s ∈ [v54Header, v54Dispatch, v54Validate], s.pins.rst = false ∧ busy s = true ∧ (after (step s)).isSome = true) ∧
    (let s : State := { v54Done with pins := ⟨false, true, 21⟩ }
     (s.fsm = .done ∨ s.fsm = .error) ∧ s.pins.start = true ∧ s.pins.rst = false) := by decide

theorem witness_QuiescentStatesWaitForTheHost :
    v54Done.pins.rst = false ∧ v54Done.pins.start = false ∧ quiescent v54Done :=
  ⟨rfl, rfl, .inr (.inl rfl)⟩

/-- A state for each clause of the table. -/
theorem witness_ControlStatesFollowTheTable :
    (∀ f ∈ [Fsm.idle, .header, .dispatch, .validate, .done, .error],
      let s : State := { v54Pushed with fsm := f, pc := if f = .header then 0 else 15 }
      s.pins.rst = false ∧ (after (step s)).isSome = true ∧ s.fsm = f) ∧
    (v54Dispatch.pc ≠ v54Dispatch.len ∧ (after (step v54Dispatch)).isSome = true) := by decide

theorem witness_StartForgetsEarlierSessions :
    (let s : State := { v54Done with pins := ⟨false, true, 21⟩ }
     let s' : State := { shortValidate with fsm := .error, errCode := 6, pins := ⟨false, true, 21⟩ }
     s.pins = s'.pins ∧ s.input = s'.input ∧ s.pins.rst = false ∧ s.pins.start = true ∧
      (s.fsm = .idle ∨ s.fsm = .done ∨ s.fsm = .error) ∧ (s'.fsm = .idle ∨ s'.fsm = .done ∨ s'.fsm = .error)) := by decide

/-- A length every port can carry and one that none can, held and changed while busy and when not; the last byte of the stream,
changed and put again, and the first byte after it; a file while busy and when not, its stream the shortest and one too long. -/
theorem witness_HostActionsDoWhatTheHostMay :
    v54Held.input.wf = true ∧ v54Done.input.wf = true ∧ busy v54Held = true ∧ busy v54Done = false ∧
    (0 < 2 ^ Config.addressWidth ∧ 0 ≠ v54Held.pins.len) ∧ (0 < 2 ^ Config.addressWidth ∧ v54Dispatch.pins.len = 0) ∧
    2 ^ Config.addressWidth ≤ (⟨false, true, 2 ^ Config.addressWidth⟩ : Pins).len ∧
    (14 < v54Held.len ∧ v54Held.input.read 14 ≠ 1 ∧ v54Held.input.read 14 = 0xC0 ∧ v54Held.len ≤ 15) ∧
    (List.replicate Config.trailerLen (0#8)).length = Config.trailerLen ∧
    ([] : List Byte).length < 2 ^ Config.addressWidth ∧
    2 ^ Config.addressWidth ≤ (List.replicate (2 ^ Config.addressWidth) (0#8)).length :=
  ⟨by decide, by decide, by decide, by decide, ⟨Nat.two_pow_pos _, by decide⟩, ⟨Nat.two_pow_pos _, rfl⟩, Nat.le_refl _, by decide,
    List.length_replicate, Nat.two_pow_pos _, Nat.le_of_eq List.length_replicate.symm⟩

theorem witness_OpcodesKeepTheControlRegisters :
    (∃ t, (Instr.run 0).isHeader = false ∧ exec (.run 0) v54Dispatch = .next t ∧ t.fsm = .dispatch) ∧
    (∃ t, (Instr.luma 0 0 0).isHeader = false ∧ exec (.luma 0 0 0) v54Dispatch = .next t ∧ t.fsm = .error) :=
  ⟨⟨_, rfl, rfl, rfl⟩, _, rfl, rfl, rfl⟩

theorem witness_OnlyRgbaInThreeChannelsSetsMalformed :
    (let s := loopState 3 startPrev [] [0xFF, 1, 2, 3, 4]
     ∃ t, exec (.rgba 1 2 3 4) s = .next t ∧ s.malformed = false ∧ t.malformed = true) ∧
    (∃ t, v56Validate.pins.rst = false ∧ busy v56Validate = true ∧ step v56Validate = .next t ∧
      v56Validate.malformed = true) :=
  ⟨⟨_, rfl, rfl, rfl⟩, _, rfl, rfl, rfl, rfl⟩

theorem witness_StreamIsConsumedForwardAndOutputAppended :
    ∃ t, v54Dispatch.pins.rst = false ∧ busy v54Dispatch = true ∧ step v54Dispatch = .next t ∧ t.out ≠ [] :=
  ⟨_, rfl, rfl, rfl, by decide⟩

theorem witness_StepKeepsTheInvariant : ∃ t, Inv v54Dispatch ∧ step v54Dispatch = .next t ∧ t.pc = 15 :=
  ⟨_, witness_inv_dispatch, rfl, rfl⟩

theorem witness_HostActionsKeepTheInvariant :
    ∃ t, Inv v54Dispatch ∧ hostAct (.putByte 15 7) v54Dispatch = .next t ∧ t.input.read 15 = 7 :=
  ⟨_, witness_inv_dispatch, rfl, rfl⟩

theorem witness_LengthsStayWithinTheAddressWidth :
    ∃ t u, LengthsFit Config.addressWidth State.reset ∧ step State.reset = .next t ∧
      hostAct (.putByte 0 7) State.reset = .next u :=
  ⟨_, _, ⟨Nat.two_pow_pos _, Nat.two_pow_pos _⟩, rfl, rfl⟩

theorem witness_StepNeverStopsUnderTheInvariant : Inv v54Header := witness_inv_header

theorem witness_CacheSlotIsTheLatestPushWithItsIndex :
    Inv loopAfterPixel ∧ readCache loopAfterPixel.cache 53 ≠ ⟨0, 0, 0, 0⟩ := ⟨witness_inv_loop, by decide⟩

theorem witness_PixelCounterCannotOverflow :
    Inv v54Done ∧ LengthsFit 58 v54Done ∧ 58 + 6 ≤ Config.counterWidth := by
  refine ⟨witness_inv_done, ?_, by decide⟩
  unfold LengthsFit
  decide

theorem witness_SessionEndsWithinItsBound :
    Inv v54Header ∧ v54Header.pins.rst = false ∧ v54Header.fsm = .header := ⟨witness_inv_header, rfl, rfl⟩

/-- Two buffers that differ only after the stream. -/
theorem witness_SessionDependsOnItsStreamAlone :
    v54Header.pins.rst = false ∧ v54Header.pins.start = false ∧
    SameStream v54Header { v54Header with input := Memory.write v54Header.input 15 7 } :=
  ⟨rfl, rfl, rfl, by decide⟩

end Sys2Proof.Tests
end

/-! What a meaning, a step and a host action do to `LEN` and to the pins (R5, R19, R99), and the width of both. -/

namespace Sys2Proof.Machine

/-! ### Frames of `LEN` and the pins -/

@[simp] theorem pushN_len (n : Nat) (p : Pixel) (s : State) : (pushN n p s).len = s.len := by
  cases n with
  | zero => rfl
  | succ n => rw [pushN_succ_eq]

@[simp] theorem pastUnit_len (i : Instr) (s : State) : (pastUnit i s).len = s.len := rfl

/-- No unit writes `LEN`, whether it completes or raises an error. -/
theorem exec_len {i : Instr} {s t : State} (h : exec i s = .next t) : t.len = s.len := by
  cases hi : i.isHeader with
  | true =>
    cases i with
    | hdr m w ht c cs =>
      obtain ⟨k, d, -, -, e⟩ | ⟨-, -, -, -, e⟩ := exec_hdr_cases m w ht c cs s
      · rw [e, raise_eq] at h
        cases h
        rfl
      · rw [e] at h
        cases h
        rfl
    | _ => cases hi
  | false =>
    obtain ⟨-, rfl⟩ | ⟨-, rfl⟩ := exec_opcode_cases hi h
    · simp
    · rfl

/-- VALIDATE writes neither `LEN` nor the pins. -/
theorem validateStep_len_pins {s t : State} (h : validateStep s = .next t) : t.len = s.len ∧ t.pins = s.pins := by
  obtain ⟨-, rfl⟩ | ⟨-, -, -, rfl⟩ | ⟨-, -, -, rfl⟩ := validateStep_cases h <;> exact ⟨rfl, rfl⟩

/-- No step drives an input pin, and only START writes `LEN`, with the `len` port's value (R99). -/
theorem step_len_pins {s t : State} (h : step s = .next t) :
    (t.len = s.len ∨ action s = .start ∧ t.len = s.pins.len) ∧ t.pins = s.pins := by
  obtain ⟨-, rfl⟩ | ⟨ha, rfl⟩ | ⟨-, rfl⟩ | ⟨-, m, w, ht, c, cs, hx⟩ | ⟨-, rfl⟩ | ⟨-, i, -, -, hx⟩ | ⟨-, hv⟩ :=
    step_cases h
  · exact ⟨.inl rfl, rfl⟩
  · exact ⟨.inr ⟨ha, rfl⟩, rfl⟩
  · exact ⟨.inl rfl, rfl⟩
  · exact ⟨.inl (exec_len hx), (exec_env hx).1⟩
  · exact ⟨.inl rfl, rfl⟩
  · exact ⟨.inl (exec_len hx), (exec_env hx).1⟩
  · exact (validateStep_len_pins hv).imp_left .inl

/-- A host action that is done leaves `LEN` as it is, and the `len` port as it is or at a value that fits it (U11). -/
theorem hostAct_len_pins {a : HostAction} {s t : State} (h : hostAct a s = .next t) :
    t.len = s.len ∧ (t.pins.len = s.pins.len ∨ t.pins.len < 2 ^ Config.addressWidth) := by
  obtain ⟨p, -, hp, -, rfl⟩ | ⟨addr, v, -, -, rfl⟩ | ⟨file, -, -, hf, rfl⟩ := hostAct_cases h
  · exact ⟨rfl, .inr hp⟩
  · exact ⟨rfl, .inl rfl⟩
  · exact ⟨rfl, .inr hf⟩

/-! ### The width of `LEN` and the `len` port -/

/-- Both lengths are 0 in the reset state, so they fit any width. -/
theorem lengthsFit_reset (aw : Nat) : LengthsFit aw State.reset :=
  ⟨Nat.two_pow_pos aw, Nat.two_pow_pos aw⟩

/-- A step keeps both lengths within any width: what START samples has fitted the port. -/
theorem step_keeps_lengthsFit {aw : Nat} {s t : State} (hs : LengthsFit aw s) (h : step s = .next t) :
    LengthsFit aw t := by
  obtain ⟨hlen, hport⟩ := hs
  obtain ⟨hl, hp⟩ := step_len_pins h
  have hport' : t.pins.len < 2 ^ aw := by rwa [hp]
  obtain e | ⟨-, e⟩ := hl
  · exact ⟨by rwa [e], hport'⟩
  · exact ⟨by rwa [e], hport'⟩

/-- A host action that is done keeps both lengths within the address width: it drives no `len` that does not fit. -/
theorem hostAct_keeps_lengthsFit {a : HostAction} {s t : State} (hs : LengthsFit Config.addressWidth s)
    (h : hostAct a s = .next t) : LengthsFit Config.addressWidth t := by
  obtain ⟨hlen, hport⟩ := hs
  obtain ⟨hl, e | hfit⟩ := hostAct_len_pins h
  · exact ⟨by rwa [hl], by rwa [e]⟩
  · exact ⟨by rwa [hl], hfit⟩

/-- Settles O49: reset fits, and each step and each host action that is done keeps the fit. -/
theorem lengthsStayWithinTheAddressWidth : Obligations.LengthsStayWithinTheAddressWidth :=
  ⟨lengthsFit_reset _, fun _ _ => step_keeps_lengthsFit, fun _ _ _ => hostAct_keeps_lengthsFit⟩

end Sys2Proof.Machine

/-! The control steps by the state they are taken in (R11), what a unit can do in a session, and what follows for the control
state, START, the flag, the cursor and `OUT` (R10 to R15, R20, R61, R65). -/

namespace Sys2Proof.Machine

/-! ### The steps of a quiescent state and of a running session -/

/-- `rst` sampled 1 is a RESET, before everything else (R98). -/
theorem step_of_rst {s : State} (hr : s.pins.rst = true) : step s = .next (resetStep s) := by
  have ha : action s = .reset := by simp [action, hr]
  unfold step
  rw [ha]

/-- Without `rst` a quiescent state takes START when `start` is 1, and else waits (R11, R99; log 5). -/
theorem step_of_quiescent {s : State} (hr : s.pins.rst = false) (hq : quiescent s) :
    step s = .next (if s.pins.start then startStep s else s) := by
  have ha : action s = if s.pins.start then .start else .quiet := by
    obtain hf | hf | hf := hq <;> simp [action, hr, hf]
  unfold step
  rw [ha]
  cases s.pins.start <;> rfl

/-- A state in which no session runs is quiescent. -/
theorem quiescent_of_not_busy {s : State} (h : busy s = false) : quiescent s := by
  cases hf : s.fsm <;> simp_all [busy, quiescent]

/-- Everything a step of a running session can do, by the control state it is taken in (R11). -/
theorem step_cases_of_busy {s t : State} (hr : s.pins.rst = false) (hb : busy s = true) (h : step s = .next t) :
    (s.fsm = .header ∧ s.pc = 0 ∧ ∃ m w ht c cs, exec (.hdr m w ht c cs) s = .next t) ∨
    (s.fsm = .dispatch ∧ s.pc = s.len ∧ t = eosStep s) ∨
    (s.fsm = .dispatch ∧ s.pc < s.len ∧ ∃ i, i.isHeader = false ∧ i.wellFormed = true ∧ exec i s = .next t) ∨
    (s.fsm = .validate ∧ validateStep s = .next t) := by
  have hc := step_cases h
  cases hf : s.fsm with
  | idle | done | error => simp [busy, hf] at hb
  | header =>
    by_cases hpc : s.pc = 0
    · exact .inl ⟨rfl, hpc, by simpa [action, hr, hf, hpc] using hc⟩
    · simp [action, hr, hf, hpc] at hc
  | dispatch =>
    rcases Nat.lt_trichotomy s.pc s.len with hpc | hpc | hpc
    · exact .inr (.inr (.inl ⟨rfl, hpc, by simpa [action, hr, hf, hpc, Nat.ne_of_lt hpc] using hc⟩))
    · exact .inr (.inl ⟨rfl, hpc, by simpa [action, hr, hf, hpc] using hc⟩)
    · simp [action, hr, hf, Nat.ne_of_gt hpc, Nat.not_lt_of_gt hpc] at hc
  | validate => exact .inr (.inr (.inr ⟨rfl, by simpa [action, hr, hf] using hc⟩))

/-! ### What a unit can do -/

/-- `t` is `s` after a unit raised an error: the reads that succeeded moved the cursor, at most to the end of a header and never
past `LEN`, and nothing else but the entry into ERROR happened (R24, R94). -/
def UnitRaised (s t : State) : Prop :=
  ∃ k d, d ≤ 14 ∧ d ≤ s.len - s.pc ∧ t = { s with pc := s.pc + d, fsm := .error, errCode := errorCode k }

/-- `s` after a good header: the cursor past it, its registers written, the loop entered (R57). -/
def headerParsed (w h : Word32) (c cs : Byte) (s : State) : State :=
  { s with
    pc := s.pc + 14
    width := w
    height := h
    channels := c.setWidth 3
    colorspace := cs.setWidth 1
    fsm := .dispatch }

/-- The unit selected by position is a HDR. -/
theorem exists_hdr_of_isHeader {i : Instr} (hi : i.isHeader = true) : ∃ m w h c cs, i = .hdr m w h c cs := by
  cases i with
  | hdr m w h c cs => exact ⟨m, w, h, c, cs, rfl⟩
  | rgb | rgba | index | diff | luma | run => cases hi

/-- HDR that is run raises an error or parses a header with a legal channel byte (R51). -/
theorem exec_hdr_next_cases {m w h : Word32} {c cs : Byte} {s t : State} (hx : exec (.hdr m w h c cs) s = .next t) :
    UnitRaised s t ∨ (s.pc + 14 ≤ s.len ∧ (c = 3 ∨ c = 4) ∧ t = headerParsed w h c cs s) := by
  obtain ⟨k, d, hd, hle, e⟩ | ⟨hle, hc, -, -, e⟩ := exec_hdr_cases m w h c cs s
  · have hd14 : d ≤ 14 := by
      have all : ∀ d ∈ hdrErrorAt k, d ≤ 14 := by cases k <;> decide
      exact all d hd
    rw [e, raise_eq] at hx
    exact .inl ⟨k, d, hd14, hle, (Host.Outcome.next.inj hx).symm⟩
  · rw [e] at hx
    exact .inr ⟨hle, hc, (Host.Outcome.next.inj hx).symm⟩

/-- An opcode that is run raises an error or pushes past the unit. -/
theorem exec_opcode_next_cases {i : Instr} (hi : i.isHeader = false) {s t : State} (hx : exec i s = .next t) :
    UnitRaised s t ∨
      (s.pc + unitLength i ≤ s.len ∧ t = pushN (pushes i) (pushedPixel i s) (pastUnit i s)) := by
  obtain h | ⟨-, rfl⟩ := exec_opcode_cases hi hx
  · exact .inr h
  · by_cases hpc : s.pc < s.len
    · exact .inl ⟨.unexpectedEndOfInput, 1, by decide, by omega, by rw [if_pos hpc]; rfl⟩
    · exact .inl ⟨.unexpectedEndOfInput, 0, by decide, Nat.zero_le _, by rw [if_neg hpc]; rfl⟩

/-- Every unit answers a next state in every state. -/
theorem exec_total (i : Instr) (s : State) : ∃ t, exec i s = .next t := by
  cases hi : i.isHeader with
  | true =>
    obtain ⟨m, w, h, c, cs, rfl⟩ := exists_hdr_of_isHeader hi
    obtain ⟨k, d, -, -, e⟩ | ⟨-, -, -, -, e⟩ := exec_hdr_cases m w h c cs s
    · exact ⟨_, e⟩
    · exact ⟨_, e⟩
  | false =>
    by_cases h : s.pc + unitLength i ≤ s.len
    · exact ⟨_, exec_opcode_of_le hi h⟩
    · exact ⟨_, by rw [exec_opcode hi, if_neg h, raise_eq]⟩

/-! ### The frame of several pushes -/

@[simp] theorem pushN_fsm (n : Nat) (p : Pixel) (s : State) : (pushN n p s).fsm = s.fsm := by
  cases n with
  | zero => rfl
  | succ n => rw [pushN_succ_eq]

@[simp] theorem pushN_pc (n : Nat) (p : Pixel) (s : State) : (pushN n p s).pc = s.pc := by
  cases n with
  | zero => rfl
  | succ n => rw [pushN_succ_eq]

@[simp] theorem pushN_malformed (n : Nat) (p : Pixel) (s : State) : (pushN n p s).malformed = s.malformed := by
  cases n with
  | zero => rfl
  | succ n => rw [pushN_succ_eq]

@[simp] theorem pushN_pixCount (n : Nat) (p : Pixel) (s : State) : (pushN n p s).pixCount = s.pixCount + n := by
  cases n with
  | zero => rfl
  | succ n => rw [pushN_succ_eq]

@[simp] theorem pushN_out (n : Nat) (p : Pixel) (s : State) :
    (pushN n p s).out = s.out ++ List.replicate n (outPixel s.channels p) := by
  cases n with
  | zero => simp
  | succ n => rw [pushN_succ_eq]

@[simp] theorem pastUnit_fsm (i : Instr) (s : State) : (pastUnit i s).fsm = s.fsm := rfl
@[simp] theorem pastUnit_pc (i : Instr) (s : State) : (pastUnit i s).pc = s.pc + unitLength i := rfl
@[simp] theorem pastUnit_malformed (i : Instr) (s : State) : (pastUnit i s).malformed = (s.malformed || flags i s) := rfl
@[simp] theorem pastUnit_pixCount (i : Instr) (s : State) : (pastUnit i s).pixCount = s.pixCount := rfl
@[simp] theorem pastUnit_out (i : Instr) (s : State) : (pastUnit i s).out = s.out := rfl

/-! ### The control state (R11) -/

/-- HDR enters the loop or ERROR. -/
theorem exec_hdr_fsm {m w h : Word32} {c cs : Byte} {s t : State} (hx : exec (.hdr m w h c cs) s = .next t) :
    t.fsm = .dispatch ∨ t.fsm = .error := by
  obtain ⟨k, d, -, -, rfl⟩ | ⟨-, -, rfl⟩ := exec_hdr_next_cases hx
  · exact .inr rfl
  · exact .inl rfl

/-- An opcode leaves the control state or enters ERROR. -/
theorem exec_opcode_fsm {i : Instr} (hi : i.isHeader = false) {s t : State} (hx : exec i s = .next t) :
    t.fsm = s.fsm ∨ t.fsm = .error := by
  obtain ⟨k, d, -, -, rfl⟩ | ⟨-, rfl⟩ := exec_opcode_next_cases hi hx
  · exact .inr rfl
  · exact .inl (by simp)

/-- VALIDATE ends the session. -/
theorem validateStep_fsm {s t : State} (h : validateStep s = .next t) : t.fsm = .done ∨ t.fsm = .error := by
  obtain ⟨-, rfl⟩ | ⟨-, -, -, rfl⟩ | ⟨-, -, -, rfl⟩ := validateStep_cases h
  · exact .inr rfl
  · exact .inr rfl
  · exact .inl rfl

/-- A quiescent state is left for HEADER exactly by `start`. -/
theorem step_fsm_of_quiescent {s t : State} (hr : s.pins.rst = false) (hq : quiescent s) (h : step s = .next t) :
    t.fsm = if s.pins.start then .header else s.fsm := by
  rw [step_of_quiescent hr hq] at h
  obtain rfl := Host.Outcome.next.inj h
  cases s.pins.start <;> rfl

/-- HEADER is left for DISPATCH or ERROR. -/
theorem step_fsm_of_header {s t : State} (hr : s.pins.rst = false) (hf : s.fsm = .header) (h : step s = .next t) :
    t.fsm = .dispatch ∨ t.fsm = .error := by
  have hb : busy s = true := by simp [busy, hf]
  obtain ⟨-, -, m, w, ht, c, cs, hx⟩ | ⟨hd, -, -⟩ | ⟨hd, -, -⟩ | ⟨hv, -⟩ := step_cases_of_busy hr hb h
  · exact exec_hdr_fsm hx
  · simp [hf] at hd
  · simp [hf] at hd
  · simp [hf] at hv

/-- DISPATCH is left for VALIDATE exactly at `pc = LEN`, and else only for ERROR (R58). -/
theorem step_fsm_of_dispatch {s t : State} (hr : s.pins.rst = false) (hf : s.fsm = .dispatch) (h : step s = .next t) :
    if s.pc = s.len then t.fsm = .validate else t.fsm = .dispatch ∨ t.fsm = .error := by
  have hb : busy s = true := by simp [busy, hf]
  obtain ⟨hh, -, -⟩ | ⟨-, hpc, rfl⟩ | ⟨-, hpc, i, hi, -, hx⟩ | ⟨hv, -⟩ := step_cases_of_busy hr hb h
  · simp [hf] at hh
  · rw [if_pos hpc]
    rfl
  · rw [if_neg (Nat.ne_of_lt hpc), ← hf]
    exact exec_opcode_fsm hi hx
  · simp [hf] at hv

/-- VALIDATE is left for DONE or ERROR. -/
theorem step_fsm_of_validate {s t : State} (hr : s.pins.rst = false) (hf : s.fsm = .validate) (h : step s = .next t) :
    t.fsm = .done ∨ t.fsm = .error := by
  have hb : busy s = true := by simp [busy, hf]
  obtain ⟨hh, -, -⟩ | ⟨hd, -, -⟩ | ⟨hd, -, -⟩ | ⟨-, hv⟩ := step_cases_of_busy hr hb h
  · simp [hf] at hh
  · simp [hf] at hd
  · simp [hf] at hd
  · exact validateStep_fsm hv

/-- Settles O40: the codes by evaluation, the transitions by the control state the step is taken in. -/
theorem controlStatesFollowTheTable : Obligations.ControlStatesFollowTheTable := by
  refine ⟨rfl, rfl, rfl, rfl, rfl, rfl, fun s t hr h => ⟨fun hf => ?_, fun hf => step_fsm_of_header hr hf h,
    fun hf => step_fsm_of_dispatch hr hf h, fun hf => step_fsm_of_validate hr hf h, fun hf => ?_, fun hf => ?_⟩⟩
  · simpa only [hf] using step_fsm_of_quiescent hr (.inl hf) h
  · simpa only [hf] using step_fsm_of_quiescent hr (.inr (.inl hf)) h
  · simpa only [hf] using step_fsm_of_quiescent hr (.inr (.inr hf)) h

/-! ### Quiescent states and START (R20, R83, R95, R99) -/

/-- Settles O39: without `start` the step of a quiescent state answers it unchanged. -/
theorem quiescentStatesWaitForTheHost : Obligations.QuiescentStatesWaitForTheHost := by
  intro s hr hs hq
  rw [step_of_quiescent hr hq, if_neg (by simp [hs])]

/-- The state after START is a function of the pins and the buffer: START writes every other field (R99). -/
theorem startStep_congr {s s' : State} (hp : s.pins = s'.pins) (hi : s.input = s'.input) : startStep s = startStep s' := by
  unfold startStep initialise
  simp only [hp, hi]

/-- Settles O41: both machines take START, which reads only the pins and the buffer. -/
theorem startForgetsEarlierSessions : Obligations.StartForgetsEarlierSessions := by
  intro s s' hp hi hr hs hq hq'
  refine ⟨startStep s, ?_, ?_⟩
  · rw [step_of_quiescent hr hq, if_pos hs]
  · rw [step_of_quiescent (hp ▸ hr) hq', if_pos (hp ▸ hs), startStep_congr hp hi]

/-! ### The flag (R15, R65) -/

/-- A unit sets the flag exactly when it is an RGBA in a three-channel image. -/
theorem flags_eq_true_iff (i : Instr) (s : State) :
    flags i s = true ↔ s.channels = 3 ∧ ∃ r g b a, i = .rgba r g b a := by
  cases i <;> simp [flags]

/-- A unit that is run leaves the flag, or, when it completes, adds its own to it. -/
theorem exec_malformed {i : Instr} {s t : State} (hx : exec i s = .next t) :
    t.malformed = s.malformed ∨ t.malformed = (s.malformed || flags i s) := by
  cases hi : i.isHeader with
  | true =>
    obtain ⟨m, w, h, c, cs, rfl⟩ := exists_hdr_of_isHeader hi
    obtain ⟨k, d, -, -, rfl⟩ | ⟨-, -, rfl⟩ := exec_hdr_next_cases hx
    · exact .inl rfl
    · exact .inl rfl
  | false =>
    obtain ⟨k, d, -, -, rfl⟩ | ⟨-, rfl⟩ := exec_opcode_next_cases hi hx
    · exact .inl rfl
    · exact .inr (by simp)

/-- No unit clears the flag. -/
theorem exec_keeps_malformed {i : Instr} {s t : State} (hx : exec i s = .next t) (hm : s.malformed = true) :
    t.malformed = true := by
  obtain e | e := exec_malformed hx
  · rw [e, hm]
  · rw [e, hm, Bool.true_or]

/-- The unit that sets the flag is an RGBA in a three-channel image. -/
theorem exec_sets_malformed {i : Instr} {s t : State} (hx : exec i s = .next t) (hm : s.malformed = false)
    (hm' : t.malformed = true) : s.channels = 3 ∧ ∃ r g b a, i = .rgba r g b a := by
  obtain e | e := exec_malformed hx
  · rw [e, hm] at hm'
    cases hm'
  · rw [hm, Bool.false_or, hm'] at e
    exact (flags_eq_true_iff i s).1 e.symm

/-- VALIDATE leaves the flag. -/
theorem validateStep_malformed {s t : State} (h : validateStep s = .next t) : t.malformed = s.malformed := by
  obtain ⟨-, rfl⟩ | ⟨-, -, -, rfl⟩ | ⟨-, -, -, rfl⟩ := validateStep_cases h <;> rfl

/-- VALIDATE does not pass a session that has the flag (R80). -/
theorem validateStep_of_malformed {s t : State} (h : validateStep s = .next t) (hm : s.malformed = true) :
    t.fsm ≠ .done := by
  obtain ⟨-, rfl⟩ | ⟨-, -, -, rfl⟩ | ⟨-, -, hm', -⟩ := validateStep_cases h
  · simp
  · simp
  · rw [hm] at hm'
    cases hm'

/-- Within a session a step keeps the flag once it is set. -/
theorem step_keeps_malformed {s t : State} (hr : s.pins.rst = false) (hb : busy s = true) (h : step s = .next t)
    (hm : s.malformed = true) : t.malformed = true := by
  obtain ⟨-, -, m, w, ht, c, cs, hx⟩ | ⟨-, -, rfl⟩ | ⟨-, -, i, -, -, hx⟩ | ⟨-, hv⟩ := step_cases_of_busy hr hb h
  · exact exec_keeps_malformed hx hm
  · exact hm
  · exact exec_keeps_malformed hx hm
  · rw [validateStep_malformed hv, hm]

/-- Within a session a step from a state with the flag does not end in DONE. -/
theorem step_of_malformed_ne_done {s t : State} (hr : s.pins.rst = false) (hb : busy s = true) (h : step s = .next t)
    (hm : s.malformed = true) : t.fsm ≠ .done := by
  obtain ⟨-, -, m, w, ht, c, cs, hx⟩ | ⟨-, -, rfl⟩ | ⟨hf, -, i, hi, -, hx⟩ | ⟨-, hv⟩ := step_cases_of_busy hr hb h
  · obtain e | e := exec_hdr_fsm hx <;> simp [e]
  · simp
  · obtain e | e := exec_opcode_fsm hi hx <;> simp [e, hf]
  · exact validateStep_of_malformed hv hm

/-- Settles O44: the flag of a unit, and of a step of a running session. -/
theorem onlyRgbaInThreeChannelsSetsMalformed : Obligations.OnlyRgbaInThreeChannelsSetsMalformed :=
  ⟨fun _ _ _ hx => ⟨exec_keeps_malformed hx, exec_sets_malformed hx⟩,
    fun _ _ hr hb h hm => ⟨step_keeps_malformed hr hb h hm, step_of_malformed_ne_done hr hb h hm⟩⟩

/-! ### The cursor and `OUT` (R10, R13, R17, R61) -/

/-- From `s` to `t` the cursor goes forward by at most a header and `OUT` grows at its end, counted, by at most the pixels of one
RUN. -/
def Advances (s t : State) : Prop :=
  s.pc ≤ t.pc ∧ t.pc ≤ s.pc + 14 ∧ ∃ l, t.out = s.out ++ l ∧ l.length ≤ 62 ∧ t.pixCount = s.pixCount + l.length

/-- With `OUT` and its counter as they were, only the cursor is to be looked at. -/
theorem advances_of_output_kept {s t : State} {d : Nat} (hd : d ≤ 14) (hpc : t.pc = s.pc + d) (ho : t.out = s.out)
    (hc : t.pixCount = s.pixCount) : Advances s t :=
  ⟨by omega, by omega, [], by simp [ho], by simp, by simp [hc]⟩

/-- A raised error pushes nothing. -/
theorem UnitRaised.advances {s t : State} (h : UnitRaised s t) : Advances s t := by
  obtain ⟨k, d, hd, -, rfl⟩ := h
  exact advances_of_output_kept hd rfl rfl rfl

/-- HDR pushes nothing and is fourteen bytes long. -/
theorem exec_hdr_advances {m w h : Word32} {c cs : Byte} {s t : State} (hx : exec (.hdr m w h c cs) s = .next t) :
    Advances s t := by
  obtain hraised | ⟨-, -, rfl⟩ := exec_hdr_next_cases hx
  · exact hraised.advances
  · exact advances_of_output_kept (Nat.le_refl 14) rfl rfl rfl

/-- A legal opcode is at most five bytes long and pushes at most 62 pixels. -/
theorem exec_opcode_advances {i : Instr} (hi : i.isHeader = false) (hw : i.wellFormed = true) {s t : State}
    (hx : exec i s = .next t) : Advances s t := by
  obtain hraised | ⟨-, rfl⟩ := exec_opcode_next_cases hi hx
  · exact hraised.advances
  · have hlen := unitLength_bounds hi
    refine ⟨?_, ?_, List.replicate (pushes i) (outPixel s.channels (pushedPixel i s)), ?_, ?_, ?_⟩
    · simp
    · simp only [pushN_pc, pastUnit_pc]
      omega
    · rw [pushN_out]
      rfl
    · simpa using pushes_le hw
    · simp

/-- VALIDATE touches neither the cursor nor `OUT`. -/
theorem validateStep_advances {s t : State} (h : validateStep s = .next t) : Advances s t := by
  obtain ⟨-, rfl⟩ | ⟨-, -, -, rfl⟩ | ⟨-, -, -, rfl⟩ := validateStep_cases h <;>
    exact advances_of_output_kept (Nat.zero_le 14) rfl rfl rfl

/-- Settles O45, by the control state the step is taken in. -/
theorem streamIsConsumedForwardAndOutputAppended : Obligations.StreamIsConsumedForwardAndOutputAppended := by
  intro s t hr hb h
  obtain ⟨-, -, m, w, ht, c, cs, hx⟩ | ⟨-, -, rfl⟩ | ⟨-, -, i, hi, hw, hx⟩ | ⟨-, hv⟩ := step_cases_of_busy hr hb h
  · exact exec_hdr_advances hx
  · exact advances_of_output_kept (Nat.zero_le 14) rfl rfl rfl
  · exact exec_opcode_advances hi hw hx
  · exact validateStep_advances hv

end Sys2Proof.Machine

/-! The invariant: it holds right after reset, every step keeps it, and what it says of the next step and of the pixel counter
(R10 to R17, R33, R58, R75, R83). -/

namespace Sys2Proof.Machine

/-! ### The reset state and START -/

/-- With the registers that reset and START set, IDLE and HEADER meet the invariant, whatever `LEN` is. -/
theorem inv_initialise {s : State} (hin : s.input.wf = true) {f : Fsm} (hf : f = .idle ∨ f = .header) (n : Nat) :
    Inv { initialise s with fsm := f, len := n } where
  input_wf := hin
  pc_le := Nat.zero_le n
  count := rfl
  err_iff := by obtain rfl | rfl := hf <;> simp
  err_le := by simp
  fresh _ := ⟨rfl, rfl⟩
  parsed h := by obtain rfl | rfl := hf <;> simp at h
  channels_legal := .inl rfl
  unparsed _ := ⟨rfl, rfl, rfl, rfl, rfl⟩
  exhausted h := by obtain rfl | rfl := hf <;> simp at h
  shape := by simp
  bound := Nat.zero_le _
  flag h := by simp at h
  complete h := by obtain rfl | rfl := hf <;> simp at h
  prev_eq := rfl
  cache_eq := rfl

/-- RESET keeps the canonical buffer and sets everything else the invariant speaks of. -/
theorem inv_resetStep {s : State} (hin : s.input.wf = true) : Inv (resetStep s) := inv_initialise hin (.inl rfl) s.len

/-- START likewise. -/
theorem inv_startStep {s : State} (hin : s.input.wf = true) : Inv (startStep s) := inv_initialise hin (.inr rfl) s.pins.len

/-- Settles O46: the reset state is a RESET of itself. -/
theorem resetMeetsTheInvariant : Obligations.ResetMeetsTheInvariant := inv_resetStep (s := State.reset) rfl

/-- Settles O37: each register of the column by evaluation, each slot by the replicated zero pixel. -/
theorem resetStateHoldsTheResetColumn : Obligations.ResetStateHoldsTheResetColumn where
  left := rfl
  right :=
    { pc := rfl, width := rfl, height := rfl, channels := rfl, colorspace := rfl, prev := rfl
      cache := fun idx => by simp [readCache, State.reset, emptyCache, zero4]
      pixCount := rfl, malformed := rfl, errCode := rfl, out := rfl }

/-! ### The entry into ERROR -/

/-- An error with the cursor moved forward within the buffer keeps the invariant (R94). -/
theorem inv_error {s : State} (hs : Inv s) (k : ErrorKind) {pc : Nat} (hpc : s.pc ≤ pc) (hlen : pc ≤ s.len) :
    Inv { s with pc := pc, fsm := .error, errCode := errorCode k } :=
  { hs with
    pc_le := hlen
    err_iff := ⟨fun _ => rfl, fun _ => errorCode_ne_zero k⟩
    err_le := errorCode_le k
    fresh := by simp
    parsed := by simp
    exhausted := by simp
    bound := by
      have := hs.bound
      simp only
      omega
    complete := by simp }

/-- A unit that raises an error keeps the invariant. -/
theorem UnitRaised.inv {s t : State} (h : UnitRaised s t) (hs : Inv s) : Inv t := by
  obtain ⟨k, d, -, hd, rfl⟩ := h
  have := hs.pc_le
  exact inv_error hs k (by omega) (by omega)

/-! ### The header (R57) -/

/-- A legal channel byte makes a legal channel count. -/
theorem legalChannels_of_byte {c : Byte} (h : c = 3 ∨ c = 4) : legalChannels (c.setWidth 3) := by
  obtain rfl | rfl := h
  · exact .inl rfl
  · exact .inr rfl

/-- A legal channel count is not the 0 of no header. -/
theorem legalChannels_ne_zero {c : BitVec 3} (h : legalChannels c) : c ≠ 0 := by
  obtain rfl | rfl := h <;> decide

/-- Outside ERROR no error code is held. -/
theorem Inv.errCode_eq_zero {s : State} (hs : Inv s) (hf : s.fsm ≠ .error) : s.errCode = 0 :=
  Classical.not_not.1 fun h => hf (hs.err_iff.1 h)

/-- A good header keeps the invariant: before it the session has produced nothing. -/
theorem inv_headerParsed {s : State} (hs : Inv s) (hf : s.fsm = .header) {w h : Word32} {c cs : Byte}
    (hlen : s.pc + 14 ≤ s.len) (hc : c = 3 ∨ c = 4) : Inv (headerParsed w h c cs s) := by
  have hleg : legalChannels (headerParsed w h c cs s).channels := legalChannels_of_byte hc
  obtain ⟨-, -, -, hout, hmal⟩ := hs.unparsed (hs.fresh (.inr hf)).2
  exact { hs with
    pc_le := hlen
    err_iff := by simp [headerParsed, hs.errCode_eq_zero (by simp [hf])]
    fresh := by simp [headerParsed]
    parsed := fun _ => ⟨hleg, Nat.le_add_left 14 s.pc⟩
    channels_legal := .inr hleg
    unparsed := fun h0 => absurd h0 (legalChannels_ne_zero hleg)
    exhausted := by simp [headerParsed]
    shape := by simp [headerParsed, hout]
    bound := by simp [headerParsed, hs.count, hout]
    flag := by simp [headerParsed, hmal]
    complete := by simp [headerParsed] }

/-- The step from HEADER keeps the invariant. -/
theorem exec_hdr_keeps_inv {s t : State} (hs : Inv s) (hf : s.fsm = .header) {m w h : Word32} {c cs : Byte}
    (hx : exec (.hdr m w h c cs) s = .next t) : Inv t := by
  obtain hraised | ⟨hlen, hc, rfl⟩ := exec_hdr_next_cases hx
  · exact hraised.inv hs
  · exact inv_headerParsed hs hf hlen hc

/-! ### The opcodes (R33, R71, R75) -/

/-- The element a push appends carries the pixel that `prev` and the slot get (R71, R73). -/
@[simp] theorem fullPixel_outPixel (c : BitVec 3) (p : Pixel) : fullPixel (outPixel c p) = effective c p := by
  unfold outPixel effective
  split <;> rfl

/-- An appended element has as many components as a legal channel count says. -/
theorem components_outPixel {c : BitVec 3} (hc : legalChannels c) (p : Pixel) : components (outPixel c p) = c.toNat := by
  obtain rfl | rfl := hc <;> rfl

/-- The last pixel of an `OUT` with one more element. -/
@[simp] theorem lastPixel_append_singleton (out : List OutPixel) (p : OutPixel) : lastPixel (out ++ [p]) = fullPixel p := by
  simp [lastPixel]

/-- The replayed cache of an `OUT` with one more element: one more write. -/
@[simp] theorem replayCache_append_singleton (out : List OutPixel) (p : OutPixel) :
    replayCache (out ++ [p]) = cachePush (replayCache out) p := by
  simp [replayCache]

/-- A push in the loop keeps the invariant while there is room for it in the bound of 62 pixels a byte. -/
theorem inv_push {s : State} (hs : Inv s) (hf : s.fsm = .dispatch) (p : Pixel)
    (hroom : s.pixCount + 1 ≤ 62 * (s.pc - 14)) : Inv (push p s) := by
  have hleg : legalChannels s.channels := (hs.parsed (.inl hf)).1
  exact { hs with
    count := by simp [hs.count]
    unparsed := fun h0 => absurd h0 (legalChannels_ne_zero hleg)
    shape := fun q hq => by
      obtain hq | rfl : q ∈ s.out ∨ q = outPixel s.channels p := by simpa using hq
      · exact hs.shape q hq
      · exact components_outPixel hleg p
    bound := hroom
    complete := by simp [hf]
    prev_eq := by simp
    cache_eq := by simp [cachePush, hs.cache_eq] }

/-- Several pushes likewise. -/
theorem inv_pushN {n : Nat} {p : Pixel} {s : State} (hs : Inv s) (hf : s.fsm = .dispatch)
    (hroom : s.pixCount + n ≤ 62 * (s.pc - 14)) : Inv (pushN n p s) := by
  induction n generalizing s with
  | zero => exact hs
  | succ n ih =>
    have hpush : Inv (push p s) := inv_push hs hf p (by omega)
    exact ih hpush hf (by simp only [push_pixCount, push_pc]; omega)

/-- Moving the cursor past an opcode and updating the flag keeps the invariant. -/
theorem inv_pastUnit {s : State} (hs : Inv s) (hf : s.fsm = .dispatch) {i : Instr}
    (hlen : s.pc + unitLength i ≤ s.len) : Inv (pastUnit i s) := by
  obtain ⟨hleg, hpc⟩ := hs.parsed (.inl hf)
  exact { hs with
    pc_le := hlen
    fresh := by simp [hf]
    parsed := fun _ => ⟨hleg, Nat.le_trans hpc (Nat.le_add_right _ _)⟩
    unparsed := fun h0 => absurd h0 (legalChannels_ne_zero hleg)
    exhausted := by simp [hf]
    bound := by
      have := hs.bound
      simp only [pastUnit_pixCount, pastUnit_pc]
      omega
    flag := fun hm => by
      obtain hm | hm : s.malformed = true ∨ flags i s = true := by simpa using hm
      · exact hs.flag hm
      · exact ((flags_eq_true_iff i s).1 hm).1
    complete := by simp [hf] }

/-- An opcode step keeps the invariant: the unit is at least one byte long, which makes room for its at most 62 pushes. -/
theorem exec_opcode_keeps_inv {s t : State} (hs : Inv s) (hf : s.fsm = .dispatch) {i : Instr}
    (hi : i.isHeader = false) (hw : i.wellFormed = true) (hx : exec i s = .next t) : Inv t := by
  obtain hraised | ⟨hlen, rfl⟩ := exec_opcode_next_cases hi hx
  · exact hraised.inv hs
  · refine inv_pushN (inv_pastUnit hs hf hlen) hf ?_
    have hbound := hs.bound
    obtain ⟨-, hpc⟩ := hs.parsed (.inl hf)
    obtain ⟨hone, -⟩ := unitLength_bounds hi
    have hpushes := pushes_le hw
    simp only [pastUnit_pixCount, pastUnit_pc]
    omega

/-! ### EOS and VALIDATE (R58, R83) -/

/-- EOS keeps the invariant: the input is exhausted. -/
theorem inv_eosStep {s : State} (hs : Inv s) (hf : s.fsm = .dispatch) (hpc : s.pc = s.len) : Inv (eosStep s) :=
  { hs with
    err_iff := by simp [hs.errCode_eq_zero (by simp [hf])]
    fresh := by simp
    parsed := fun _ => hs.parsed (.inl hf)
    exhausted := fun _ => hpc
    complete := by simp }

/-- DONE after passed checks keeps the invariant. -/
theorem inv_done {s : State} (hs : Inv s) (hf : s.fsm = .validate) (hne : expectedPixels s ≠ 0)
    (hcount : s.pixCount = expectedPixels s) (hm : s.malformed = false) : Inv { s with fsm := .done } :=
  { hs with
    err_iff := by simp [hs.errCode_eq_zero (by simp [hf])]
    fresh := by simp
    parsed := fun _ => hs.parsed (.inr (.inl hf))
    exhausted := fun _ => hs.exhausted (.inl hf)
    complete := fun _ => ⟨hcount, by simp only; omega, hm⟩ }

/-- VALIDATE keeps the invariant. -/
theorem validateStep_keeps_inv {s t : State} (hs : Inv s) (hf : s.fsm = .validate) (h : validateStep s = .next t) :
    Inv t := by
  obtain ⟨-, rfl⟩ | ⟨-, -, -, rfl⟩ | ⟨hne, hcount, hm, rfl⟩ := validateStep_cases h
  · exact inv_error hs .lengthMismatch (Nat.le_refl _) hs.pc_le
  · exact inv_error hs .malformedPixel (Nat.le_refl _) hs.pc_le
  · exact inv_done hs hf hne hcount hm

/-! ### Every step -/

/-- A step of a running session keeps the invariant. -/
theorem step_keeps_inv_of_busy {s t : State} (hs : Inv s) (hr : s.pins.rst = false) (hb : busy s = true)
    (h : step s = .next t) : Inv t := by
  obtain ⟨hf, -, m, w, ht, c, cs, hx⟩ | ⟨hf, hpc, rfl⟩ | ⟨hf, -, i, hi, hw, hx⟩ | ⟨hf, hv⟩ := step_cases_of_busy hr hb h
  · exact exec_hdr_keeps_inv hs hf hx
  · exact inv_eosStep hs hf hpc
  · exact exec_opcode_keeps_inv hs hf hi hw hx
  · exact validateStep_keeps_inv hs hf hv

/-- Every step keeps the invariant: a RESET, a step of a quiescent state or one of a running session. -/
theorem step_keeps_inv {s t : State} (hs : Inv s) (h : step s = .next t) : Inv t := by
  cases hr : s.pins.rst with
  | true =>
    rw [step_of_rst hr] at h
    obtain rfl := Host.Outcome.next.inj h
    exact inv_resetStep hs.input_wf
  | false =>
    cases hb : busy s with
    | true => exact step_keeps_inv_of_busy hs hr hb h
    | false =>
      rw [step_of_quiescent hr (quiescent_of_not_busy hb)] at h
      obtain rfl := Host.Outcome.next.inj h
      split
      · exact inv_startStep hs.input_wf
      · exact hs

/-- Settles O47, by the step that is taken. -/
theorem stepKeepsTheInvariant : Obligations.StepKeepsTheInvariant := fun _ _ => step_keeps_inv

/-- VALIDATE always answers a next state. -/
theorem validateStep_total (s : State) : ∃ t, validateStep s = .next t := by
  unfold validateStep
  split
  · exact ⟨_, raise_eq _ s⟩
  split
  · exact ⟨_, raise_eq _ s⟩
  split
  · exact ⟨_, raise_eq _ s⟩
  · exact ⟨_, rfl⟩

/-- A state that has a step of R11, or waits, has a next state. -/
theorem step_total_of_not_stuck {s : State} (h : action s ≠ .stuck) : ∃ t, step s = .next t := by
  cases ha : action s with
  | reset | start | quiet | eos => exact ⟨_, by unfold step; rw [ha]⟩
  | hdr => simpa only [step_of_hdr ha] using exec_total _ s
  | opcode =>
    obtain ⟨i, rest, hfetch, -, -⟩ := fetchOpcode_ok s
    simpa only [step_of_opcode ha hfetch] using exec_total i s
  | validate => simpa only [step, ha] using validateStep_total s
  | stuck => exact absurd ha h

/-- The invariant shuts out the register values that have no step: `pc ≠ 0` in HEADER and `pc > LEN` in DISPATCH (log 6). -/
theorem Inv.not_stuck {s : State} (hs : Inv s) : action s ≠ .stuck := by
  have hle := hs.pc_le
  have hfresh : s.fsm = .header → s.pc = 0 := fun hf => (hs.fresh (.inr hf)).1
  obtain ⟨-, ha⟩ | ⟨-, ⟨-, ⟨-, ha⟩ | ⟨-, ha⟩⟩ | ⟨hf, ⟨-, ha⟩ | ⟨hpc, -⟩⟩ | ⟨-, ⟨-, ha⟩ | ⟨-, ha⟩ | ⟨hpc, -⟩⟩ | ⟨-, ha⟩⟩ :=
    action_cases s
  case inr.inr.inl.inr => exact absurd (hfresh hf) hpc
  case inr.inr.inr.inl.inr.inr => omega
  all_goals simp [ha]

/-- Settles O50: no state that meets the invariant is stuck. -/
theorem stepNeverStopsUnderTheInvariant : Obligations.StepNeverStopsUnderTheInvariant :=
  fun _ hs => step_total_of_not_stuck hs.not_stuck

/-! ### The pixel counter (R13) -/

/-- At most 62 pixels for each byte of the buffer past the header. -/
theorem Inv.pixCount_le {s : State} (hs : Inv s) : s.pixCount ≤ 62 * (s.len - 14) :=
  calc s.pixCount ≤ 62 * (s.pc - 14) := hs.bound
    _ ≤ 62 * (s.len - 14) := Nat.mul_le_mul_left 62 (Nat.sub_le_sub_right hs.pc_le 14)

/-- Settles O52: 62 pixels a byte are fewer than the `2 ^ 6` that the six bits beyond `aw` count. -/
theorem pixelCounterCannotOverflow : Obligations.PixelCounterCannotOverflow := by
  intro s aw hs hfit hcw
  have hlen : s.len < 2 ^ aw := hfit.1
  refine ⟨hs.pixCount_le, ?_⟩
  calc s.pixCount ≤ 62 * (s.len - 14) := hs.pixCount_le
    _ < 2 ^ aw * 2 ^ 6 := by omega
    _ = 2 ^ (aw + 6) := (Nat.pow_add 2 aw 6).symm
    _ ≤ 2 ^ Config.counterWidth := Nat.pow_le_pow_right (by decide) hcw

end Sys2Proof.Machine

/-! The input buffer and the host's access to it: what the cursor reads answer (R24 to R26), and what the host may do between two
steps (R35, R36, R100; U7, U11). -/

namespace Sys2Proof.Machine

/-! ### Cursor reads (R24 to R26) -/

/-- The bytes of `MemRead` by their place: the one at `k` is the byte `k` addresses further on. -/
theorem memRead_getElem? {n k : Nat} (m : Memory) (a : Nat) (h : k < n) : (memRead m a n)[k]? = some (m.read (a + k)) := by
  rw [memRead, List.getElem?_map, List.getElem?_range h, Option.map_some]

/-- Settles O12: the read that fails and the read that succeeds, of each of the three. -/
theorem cursorReadsAreAllOrNothing : Obligations.CursorReadsAreAllOrNothing := fun s n _ =>
  ⟨readBytes_of_lt,
    fun h => ⟨memRead s.input s.pc n, readBytes_of_le h, memRead_length _ _ _, fun _ => memRead_getElem? _ _⟩,
    readByte_of_le, readByte_of_lt,
    fun h => ⟨_, readU32BE_of_le h, bigEndian32_toNat _ _ _ _⟩,
    readU32BE_of_lt⟩

/-! ### The host's actions, each as one equation (log 11) -/

/-- Driving the pins: turned away for a `len` that does not fit, then for another `len` during a session. -/
theorem hostAct_drive (p : Pins) (s : State) :
    hostAct (.drive p) s =
      if p.len < 2 ^ Config.addressWidth then
        if busy s = true ∧ p.len ≠ s.pins.len then .refused .lenChangedInSession else .next { s with pins := p }
      else .refused .lenTooWide := by
  by_cases hfit : p.len < 2 ^ Config.addressWidth <;> simp [hostAct, changesLenInSession, lenFits, hfit]

/-- Putting a byte: turned away for another byte at an address of the running session. -/
theorem hostAct_putByte (a : Nat) (v : Byte) (s : State) :
    hostAct (.putByte a v) s =
      if busy s = true ∧ a < s.len ∧ s.input.read a ≠ v then .refused .inputChangedInSession
      else .next { s with input := s.input.write a v } := by
  simp [hostAct, inSession, and_assoc]

/-- Presenting a file that ends in a whole end marker: its stream goes into `IN` and drives `len`, unless a session runs or the
length does not fit (R36, R100). -/
theorem hostAct_presentFile_append {stream trailer : List Byte} (s : State) (h : trailer.length = Config.trailerLen) :
    hostAct (.presentFile (stream ++ trailer)) s =
      if busy s = true then .refused .inputChangedInSession
      else if stream.length < 2 ^ Config.addressWidth then
        .next { s with
          input := s.input.writeBytes 0 stream
          pins := { s.pins with len := stream.length } }
      else .refused .lenTooWide := by
  simp only [hostAct, streamOfFile_append h, lenFits_iff]

/-- No file is taken during a session. -/
theorem hostAct_presentFile_of_busy {s : State} (file : List Byte) (hb : busy s = true) :
    hostAct (.presentFile file) s = .refused .inputChangedInSession := by
  simp only [hostAct, if_pos hb]

/-! ### What is in the buffer afterwards -/

/-- A stream written from address 0 on stands there byte by byte. -/
theorem Memory.getElem?_eq_read_writeBytes {m : Memory} (hm : m.wf = true) {stream : List Byte} {k : Nat}
    (hk : k < stream.length) : stream[k]? = some ((m.writeBytes 0 stream).read k) := by
  simp [Memory.read_writeBytes hm, hk]

/-- Settles O42, action by action: which branch of its equation is taken, and what the new buffer reads. -/
theorem hostActionsDoWhatTheHostMay : Obligations.HostActionsDoWhatTheHostMay := by
  intro s hwf
  refine ⟨?driveDone, ?driveChanged, ?driveTooWide, ?putChanged, ?putDone, ?fileBusy, ?fileTooWide, ?fileDone⟩
  case driveDone =>
    intro p hfit hmay
    have hkeeps : ¬(busy s = true ∧ p.len ≠ s.pins.len) := by
      rintro ⟨hb, hne⟩
      simp [hb, hne] at hmay
    rw [hostAct_drive, if_pos hfit, if_neg hkeeps]
  case driveChanged =>
    intro p hfit hb hne
    rw [hostAct_drive, if_pos hfit, if_pos ⟨hb, hne⟩]
  case driveTooWide =>
    intro p hwide
    rw [hostAct_drive, if_neg (Nat.not_lt.2 hwide)]
  case putChanged =>
    intro a v hb ha hne
    rw [hostAct_putByte, if_pos ⟨hb, ha, hne⟩]
  case putDone =>
    intro a v hmay
    have hkeeps : ¬(busy s = true ∧ a < s.len ∧ s.input.read a ≠ v) := by
      rintro ⟨hb, ha, hne⟩
      simp [hb, Nat.not_le.2 ha, hne] at hmay
    refine ⟨s.input.write a v, ?_, ?_, fun k hk => ?_⟩
    · rw [hostAct_putByte, if_neg hkeeps]
    · rw [Memory.read_write hwf, if_pos rfl]
    · rw [Memory.read_write hwf, if_neg hk]
  case fileBusy => exact hostAct_presentFile_of_busy
  case fileTooWide =>
    intro stream trailer hb htrailer hwide
    rw [hostAct_presentFile_append s htrailer, if_neg (by simp [hb]), if_neg (Nat.not_lt.2 hwide)]
  case fileDone =>
    intro stream trailer hb htrailer hfit
    refine ⟨s.input.writeBytes 0 stream, ?_, fun k => Memory.getElem?_eq_read_writeBytes hwf⟩
    rw [hostAct_presentFile_append s htrailer, if_neg (by simp [hb]), if_pos hfit]

end Sys2Proof.Machine

/-! The tag map and the codec: the tag byte of each opcode and back (R39, R47), decoding and encoding as inverses (R37, R38), and
the operand bytes of a tag (R40 to R45, R49). -/

namespace Sys2Proof

/-! ### The two parts of a tag (R39) -/

/-- The selector of a tag that is put together. -/
@[simp] theorem selector_append (sel : BitVec 2) (p : BitVec 6) : selector (sel ++ p) = sel :=
  BitVec.extractLsb'_append_eq_left

/-- The payload of a tag that is put together. -/
@[simp] theorem payload_append (sel : BitVec 2) (p : BitVec 6) : payload (sel ++ p) = p :=
  BitVec.extractLsb'_append_eq_right

/-- A tag is its selector followed by its payload. -/
theorem selector_append_payload (tag : Byte) : selector tag ++ payload tag = tag :=
  BitVec.extractLsb'_append_extractLsb' (w := 2) (len := 6)

/-- The selector as a number. -/
theorem selector_toNat (tag : Byte) : (selector tag).toNat = tag.toNat / 64 := by
  have := tag.isLt
  rw [selector, BitVec.extractLsb'_toNat, Nat.shiftRight_eq_div_pow]
  omega

/-- The payload as a number. -/
theorem payload_toNat (tag : Byte) : (payload tag).toNat = tag.toNat % 64 := by
  rw [payload, BitVec.extractLsb'_toNat, Nat.shiftRight_zero]

/-- The selector says which quarter of the tag values the tag lies in. -/
theorem selector_eq_iff {tag : Byte} {sel : BitVec 2} : selector tag = sel ↔ tag.toNat / 64 = sel.toNat := by
  rw [← BitVec.toNat_inj, selector_toNat]

/-- RGB and RGBA take the two highest payloads of the last quarter, and nothing else (R39). -/
theorem ne_reserved_tags {tag : Byte} (h : selector tag ≠ 3 ∨ (payload tag).toNat ≤ 61) : tag ≠ 0xFE ∧ tag ≠ 0xFF := by
  constructor <;> rintro rfl <;> revert h <;> decide

/-! ### The tag map, one equation per range (R47) -/

/-- INDEX has the first quarter of the tags. -/
theorem dispatch_of_selector_zero {tag : Byte} (h : selector tag = 0) : dispatch tag = .index (payload tag) := by
  obtain ⟨hrgb, hrgba⟩ := ne_reserved_tags (.inl (by simp [h] : selector tag ≠ 3))
  rw [dispatch, if_neg hrgb, if_neg hrgba, h]
  rfl

/-- DIFF has the second quarter. -/
theorem dispatch_of_selector_one {tag : Byte} (h : selector tag = 1) : dispatch tag =
    .diff ((payload tag).extractLsb' 4 2) ((payload tag).extractLsb' 2 2) ((payload tag).extractLsb' 0 2) := by
  obtain ⟨hrgb, hrgba⟩ := ne_reserved_tags (.inl (by simp [h] : selector tag ≠ 3))
  rw [dispatch, if_neg hrgb, if_neg hrgba, h]
  rfl

/-- LUMA has the third quarter. -/
theorem dispatch_of_selector_two {tag : Byte} (h : selector tag = 2) : dispatch tag = .luma (payload tag) := by
  obtain ⟨hrgb, hrgba⟩ := ne_reserved_tags (.inl (by simp [h] : selector tag ≠ 3))
  rw [dispatch, if_neg hrgb, if_neg hrgba, h]
  rfl

/-- RUN has the last quarter but for its two highest payloads. -/
theorem dispatch_of_selector_three {tag : Byte} (h : selector tag = 3) (hp : (payload tag).toNat ≤ 61) :
    dispatch tag = .run (payload tag) := by
  obtain ⟨hrgb, hrgba⟩ := ne_reserved_tags (.inr hp)
  rw [dispatch, if_neg hrgb, if_neg hrgba, h]
  rfl

/-- Everything the dispatcher can answer, and for which tags. -/
theorem dispatch_cases (tag : Byte) :
    (tag = 0xFE ∧ dispatch tag = .rgb) ∨ (tag = 0xFF ∧ dispatch tag = .rgba) ∨
    (selector tag = 0 ∧ dispatch tag = .index (payload tag)) ∨
    (selector tag = 1 ∧ dispatch tag =
      .diff ((payload tag).extractLsb' 4 2) ((payload tag).extractLsb' 2 2) ((payload tag).extractLsb' 0 2)) ∨
    (selector tag = 2 ∧ dispatch tag = .luma (payload tag)) ∨
    (selector tag = 3 ∧ (payload tag).toNat ≤ 61 ∧ dispatch tag = .run (payload tag)) := by
  have quarters : ∀ sel : BitVec 2, sel = 0 ∨ sel = 1 ∨ sel = 2 ∨ sel = 3 := by decide
  obtain h | h | h | h := quarters (selector tag)
  · exact .inr (.inr (.inl ⟨h, dispatch_of_selector_zero h⟩))
  · exact .inr (.inr (.inr (.inl ⟨h, dispatch_of_selector_one h⟩)))
  · exact .inr (.inr (.inr (.inr (.inl ⟨h, dispatch_of_selector_two h⟩))))
  · by_cases hp : (payload tag).toNat ≤ 61
    · exact .inr (.inr (.inr (.inr (.inr ⟨h, hp, dispatch_of_selector_three h hp⟩))))
    · have hreserved : tag.toNat = 0xFE ∨ tag.toNat = 0xFF := by
        have := tag.isLt
        have hq : tag.toNat / 64 = 3 := selector_eq_iff.1 h
        rw [payload_toNat] at hp
        omega
      obtain e | e := hreserved
      · obtain rfl : tag = 0xFE := BitVec.eq_of_toNat_eq e
        exact .inl ⟨rfl, rfl⟩
      · obtain rfl : tag = 0xFF := BitVec.eq_of_toNat_eq e
        exact .inr (.inl ⟨rfl, rfl⟩)

/-- The three fields of a DIFF payload as numbers (R43). -/
theorem diffFields_toNat (p : BitVec 6) : p.toNat =
    (p.extractLsb' 4 2).toNat * 16 + (p.extractLsb' 2 2).toNat * 4 + (p.extractLsb' 0 2).toNat := by
  have := p.isLt
  simp only [BitVec.extractLsb'_toNat, Nat.shiftRight_eq_div_pow]
  omega

/-- Settles O1: each range is a quarter of the tag values, its field the payload. -/
theorem dispatchFollowsTagMap : Obligations.DispatchFollowsTagMap := by
  intro tag
  have hp := payload_toNat tag
  refine ⟨fun h => ?index, fun ⟨hlo, hhi⟩ => ?diff, fun ⟨hlo, hhi⟩ => ?luma, fun ⟨hlo, hhi⟩ => ?run, fun h => ?rgb,
    fun h => ?rgba⟩
  case index =>
    have hsel : selector tag = 0 := selector_eq_iff.2 (show tag.toNat / 64 = 0 by omega)
    exact ⟨_, dispatch_of_selector_zero hsel, by omega⟩
  case diff =>
    have hsel : selector tag = 1 := selector_eq_iff.2 (show tag.toNat / 64 = 1 by omega)
    have hfields := diffFields_toNat (payload tag)
    exact ⟨_, _, _, dispatch_of_selector_one hsel, by omega⟩
  case luma =>
    have hsel : selector tag = 2 := selector_eq_iff.2 (show tag.toNat / 64 = 2 by omega)
    exact ⟨_, dispatch_of_selector_two hsel, by omega⟩
  case run =>
    have hsel : selector tag = 3 := selector_eq_iff.2 (show tag.toNat / 64 = 3 by omega)
    have hle : (payload tag).toNat ≤ 61 := by omega
    exact ⟨_, dispatch_of_selector_three hsel hle, by omega, hle⟩
  case rgb =>
    obtain rfl : tag = 0xFE := BitVec.eq_of_toNat_eq h
    rfl
  case rgba =>
    obtain rfl : tag = 0xFF := BitVec.eq_of_toNat_eq h
    rfl

/-! ### The tag of an opcode -/

/-- The three fields of a DIFF payload, in place (R43). -/
theorem diffFields_append (p : BitVec 6) :
    p.extractLsb' 4 2 ++ p.extractLsb' 2 2 ++ p.extractLsb' 0 2 = p := by
  rw [BitVec.extractLsb'_append_extractLsb'_eq_extractLsb' (by rfl),
    BitVec.extractLsb'_append_extractLsb'_eq_extractLsb' (by rfl)]
  exact BitVec.extractLsb'_eq_self

/-- The three fields of a DIFF payload that is put together from them. -/
theorem diffFields_of_append (fr fg fb : BitVec 2) :
    (fr ++ fg ++ fb).extractLsb' 4 2 = fr ∧ (fr ++ fg ++ fb).extractLsb' 2 2 = fg ∧
      (fr ++ fg ++ fb).extractLsb' 0 2 = fb := by
  refine ⟨?_, ?_, BitVec.extractLsb'_append_eq_right⟩
  · rw [BitVec.extractLsb'_append_eq_of_le (by decide)]
    exact BitVec.extractLsb'_append_eq_left
  · rw [BitVec.extractLsb'_append_eq_of_le (by decide)]
    exact BitVec.extractLsb'_append_eq_right

/-- A DIFF tag is its selector followed by the payload of its fields. -/
theorem diffTag_eq (fr fg fb : BitVec 2) : (0b01#2 ++ fr ++ fg ++ fb : Byte) = 0b01#2 ++ (fr ++ fg ++ fb) := by
  rw [BitVec.append_assoc', BitVec.append_assoc']
  rfl

/-- The tag byte of what the dispatcher answers (R47). -/
def tagOf : Op → Byte
  | .rgb => 0xFE
  | .rgba => 0xFF
  | .index idx => 0b00#2 ++ idx
  | .diff fr fg fb => 0b01#2 ++ (fr ++ fg ++ fb)
  | .luma fg => 0b10#2 ++ fg
  | .run n => 0b11#2 ++ n
  | .unknown => 0

/-- What the dispatcher can answer: no default arm (R60), no RUN payload above 61 (R45). -/
def Op.answerable : Op → Prop
  | .run n => n.toNat ≤ 61
  | .unknown => False
  | .rgb | .rgba | .index _ | .diff _ _ _ | .luma _ => True

/-- A tag is the tag of what it dispatches to. -/
theorem tagOf_dispatch (tag : Byte) : tagOf (dispatch tag) = tag := by
  have hparts := selector_append_payload tag
  obtain ⟨rfl, -⟩ | ⟨rfl, -⟩ | ⟨hsel, hop⟩ | ⟨hsel, hop⟩ | ⟨hsel, hop⟩ | ⟨hsel, -, hop⟩ := dispatch_cases tag
  · rfl
  · rfl
  all_goals rw [hsel] at hparts; rw [hop]
  case inr.inr.inr.inl => rw [tagOf, diffFields_append]; exact hparts
  all_goals exact hparts

/-- The tag of an answerable opcode dispatches to it. -/
theorem dispatch_tagOf {op : Op} (h : op.answerable) : dispatch (tagOf op) = op := by
  cases op with
  | rgb | rgba => rfl
  | index idx => rw [tagOf, dispatch_of_selector_zero (selector_append 0b00#2 idx), payload_append]
  | diff fr fg fb =>
    obtain ⟨hr, hg, hb⟩ := diffFields_of_append fr fg fb
    rw [tagOf, dispatch_of_selector_one (selector_append 0b01#2 _), payload_append, hr, hg, hb]
  | luma fg => rw [tagOf, dispatch_of_selector_two (selector_append 0b10#2 fg), payload_append]
  | run n =>
    rw [tagOf, dispatch_of_selector_three (selector_append 0b11#2 n) (by rwa [payload_append]), payload_append]
  | unknown => cases h

/-- Bytes that begin with an opcode's tag decode as its operands do. -/
theorem decodeOpcode_tagOf {op : Op} (h : op.answerable) (bs : List Byte) :
    decodeOpcode (tagOf op :: bs) = decodeOperands op bs := by
  rw [decodeOpcode, dispatch_tagOf h]

/-! ### Decoding and encoding are inverses (R37, R38) -/

/-- Settles O2, by the six formats: the tag dispatches to the opcode, whose operands are the bytes after it. -/
theorem decodeInvertsEncodeForOpcodes : Obligations.DecodeInvertsEncodeForOpcodes := by
  intro i rest hi hw
  cases i with
  | hdr => cases hi
  | rgb r g b => exact decodeOpcode_tagOf (op := .rgb) trivial (r :: g :: b :: rest)
  | rgba r g b a => exact decodeOpcode_tagOf (op := .rgba) trivial (r :: g :: b :: a :: rest)
  | index idx => exact decodeOpcode_tagOf (op := .index idx) trivial rest
  | diff fr fg fb =>
    rw [encode, diffTag_eq]
    exact decodeOpcode_tagOf (op := .diff fr fg fb) trivial rest
  | luma fg fro fbo =>
    calc decodeOpcode (encode (.luma fg fro fbo) ++ rest)
        = decodeOperands (.luma fg) ((fro ++ fbo) :: rest) := decodeOpcode_tagOf (op := .luma fg) trivial _
      _ = .ok (.luma fg fro fbo, rest) := by
        rw [decodeOperands, BitVec.extractLsb'_append_eq_left, BitVec.extractLsb'_append_eq_right]
  | run n => exact decodeOpcode_tagOf (op := .run n) (of_decide_eq_true (p := n.toNat ≤ 61) hw) rest

/-- Settles O3: each header word is the big-endian number of its own bytes. -/
theorem decodeInvertsEncodeForHeaders : Obligations.DecodeInvertsEncodeForHeaders := by
  intro i rest hi
  obtain ⟨m, w, h, c, cs, rfl⟩ := Machine.exists_hdr_of_isHeader hi
  simp only [encode, bytesOfWord32, List.cons_append, List.nil_append, decodeHeader, bigEndian32_bytes]

/-- An opcode encodes to the bytes it was decoded from: its tag is the tag of what that dispatched to. -/
theorem encode_of_decodeOpcode {bs : List Byte} {i : Instr} {rest : List Byte} (h : decodeOpcode bs = .ok (i, rest)) :
    encode i ++ rest = bs := by
  cases bs with
  | nil => cases h
  | cons tag bs =>
    have htag := tagOf_dispatch tag
    refine decodeOperands_cases (P := fun i => encode i ++ rest = tag :: bs) h ?_ ?_ ?_ ?_ ?_ ?_
    · rintro r g b hop rfl
      rw [← htag, hop]; rfl
    · rintro r g b a hop rfl
      rw [← htag, hop]; rfl
    · rintro idx hop rfl
      rw [← htag, hop]; rfl
    · rintro fr fg fb hop rfl
      rw [← htag, hop, encode, diffTag_eq]; rfl
    · rintro fg b2 hop rfl
      rw [← htag, hop, encode, BitVec.extractLsb'_append_extractLsb' (w := 4) (len := 4)]; rfl
    · rintro n hop rfl
      rw [← htag, hop]; rfl

/-- A header encodes to the bytes it was decoded from. -/
theorem encode_of_decodeHeader {bs : List Byte} {i : Instr} {rest : List Byte} (h : decodeHeader bs = .ok (i, rest)) :
    encode i ++ rest = bs := by
  unfold decodeHeader at h
  split at h
  · obtain ⟨rfl, rfl⟩ := Prod.mk.inj (Except.ok.inj h)
    simp only [encode, bytesOfWord32_bigEndian32, List.cons_append, List.nil_append]
  · cases h

/-- Settles O4: legality by the decoder's law, the bytes by the tag or by the header words. -/
theorem encodeInvertsDecode : Obligations.EncodeInvertsDecode := by
  refine fun bs i rest => ⟨fun h => ?_, fun h => ?_⟩
  · obtain ⟨hi, hw⟩ := decodeOpcode_legal h
    exact ⟨hi, hw, encode_of_decodeOpcode h⟩
  · obtain ⟨m, w, t, c, cs, rfl⟩ := decodeHeader_isHeader h
    exact ⟨rfl, encode_of_decodeHeader h⟩

/-- Settles O6, format by format. -/
theorem writtenOutWordsDecode : Obligations.WrittenOutWordsDecode := ⟨rfl, rfl, rfl, rfl, rfl, rfl, rfl⟩

/-! ### The length of a unit (R49) -/

/-- The number of operand bytes after the tag (R40 to R45). -/
def operandBytes : Op → Nat
  | .rgb => 3
  | .rgba => 4
  | .luma _ => 1
  | .index _ | .diff _ _ _ | .run _ | .unknown => 0

/-- With its operand bytes there, an opcode decodes to a unit of the tag and them, and leaves the bytes after them. -/
theorem decodeOperands_of_le {op : Op} {bs : List Byte} (hop : op.answerable) (h : operandBytes op ≤ bs.length) :
    ∃ i, decodeOperands op bs = .ok (i, bs.drop (operandBytes op)) ∧ unitLength i = operandBytes op + 1 := by
  cases op with
  | rgb =>
    match bs, h with
    | r :: g :: b :: rest, _ => exact ⟨.rgb r g b, rfl, rfl⟩
  | rgba =>
    match bs, h with
    | r :: g :: b :: a :: rest, _ => exact ⟨.rgba r g b a, rfl, rfl⟩
  | luma fg =>
    match bs, h with
    | b2 :: rest, _ => exact ⟨.luma fg (b2.extractLsb' 4 4) (b2.extractLsb' 0 4), rfl, rfl⟩
  | index idx => exact ⟨.index idx, rfl, rfl⟩
  | diff fr fg fb => exact ⟨.diff fr fg fb, rfl, rfl⟩
  | run n => exact ⟨.run n, rfl, rfl⟩
  | unknown => cases hop

/-- With fewer it is truncated. -/
theorem decodeOperands_of_lt {op : Op} {bs : List Byte} (h : bs.length < operandBytes op) :
    decodeOperands op bs = .error .truncated := by
  cases op with
  | rgb =>
    match bs, h with
    | [], _ | [_], _ | [_, _], _ => rfl
  | rgba =>
    match bs, h with
    | [], _ | [_], _ | [_, _], _ | [_, _, _], _ => rfl
  | luma fg =>
    match bs, h with
    | [], _ => rfl
  | index | diff | run | unknown => exact absurd h (Nat.not_lt_zero _)

/-- The dispatcher answers answerable opcodes only. -/
theorem dispatch_answerable (tag : Byte) : (dispatch tag).answerable := by
  obtain ⟨-, e⟩ | ⟨-, e⟩ | ⟨-, e⟩ | ⟨-, e⟩ | ⟨-, e⟩ | ⟨-, hp, e⟩ := dispatch_cases tag
  case inr.inr.inr.inr.inr => rwa [e]
  all_goals rw [e]; trivial

/-- R49: the length of the unit that a tag begins. -/
theorem operandBytes_dispatch (tag : Byte) : operandBytes (dispatch tag) + 1 =
    if tag = 0xFE then 4 else if tag = 0xFF then 5 else if selector tag = 2 then 2 else 1 := by
  have hres := ne_reserved_tags (tag := tag)
  obtain ⟨rfl, -⟩ | ⟨rfl, -⟩ | ⟨hsel, e⟩ | ⟨hsel, e⟩ | ⟨hsel, e⟩ | ⟨hsel, hp, e⟩ := dispatch_cases tag
  · rfl
  · rfl
  case inr.inr.inr.inr.inr =>
    obtain ⟨hrgb, hrgba⟩ := hres (.inr hp)
    rw [e, if_neg hrgb, if_neg hrgba, hsel]
    rfl
  all_goals
    obtain ⟨hrgb, hrgba⟩ := hres (.inl (by simp [hsel]))
    rw [e, if_neg hrgb, if_neg hrgba, hsel]
    rfl

/-- Settles O5: the tag is one byte, and what it dispatches to says how many operand bytes follow. -/
theorem unitLengthIsAFunctionOfTheTag : Obligations.UnitLengthIsAFunctionOfTheTag := by
  intro tag bs n
  have hn : n = operandBytes (dispatch tag) + 1 := (operandBytes_dispatch tag).symm
  rw [hn, List.length_cons, List.drop_succ_cons]
  exact ⟨fun h => decodeOperands_of_le (dispatch_answerable tag) (Nat.le_of_succ_le_succ h),
    fun h => decodeOperands_of_lt (Nat.lt_of_succ_lt_succ h)⟩

/-- The encoding of a unit is as long as R37 says the unit is. -/
theorem encode_length (i : Instr) : (encode i).length = unitLength i := by
  cases i <;> rfl

end Sys2Proof

/-! The unit that a step fetches (R37, R51, R59): what stands at the cursor, and what the harness places there (log 10). -/

namespace Sys2Proof.Machine

/-! ### The unit at the cursor -/

/-- The step from HEADER, once its unit is known. -/
theorem step_of_fetchHeader {s : State} (h : action s = .hdr) {i : Instr} {rest : List Byte}
    (hf : fetchHeader s = .ok (i, rest)) : step s = exec i s := by
  unfold step
  rw [h, hf]

/-- A shorter window is the beginning of a longer one. -/
theorem window_take {k n : Nat} (h : k ≤ n) (s : State) : (window n s).take k = window k s := by
  rw [window, window, ← List.map_take, List.take_range, Nat.min_eq_left h]

/-- A shorter `MemRead` is the beginning of a longer one. -/
theorem memRead_take {k n : Nat} (h : k ≤ n) (m : Memory) (a : Nat) : (memRead m a n).take k = memRead m a k := by
  rw [memRead, memRead, ← List.map_take, List.take_range, Nat.min_eq_left h]

/-- What begins the bytes between the cursor and `LEN` begins the window, if it is no longer than the window. -/
theorem window_begins {n : Nat} {s : State} {bs rest : List Byte} (hpc : s.pc ≤ s.len)
    (h : memRead s.input s.pc (s.len - s.pc) = bs ++ rest) (hn : bs.length ≤ n) : ∃ more, window n s = bs ++ more := by
  have hlen : bs.length ≤ s.len - s.pc := by
    have := congrArg List.length h
    rw [memRead_length, List.length_append] at this
    omega
  have hbs : (window n s).take bs.length = bs :=
    calc (window n s).take bs.length
        = memRead s.input s.pc bs.length := by rw [window_take hn, window_of_le (by omega)]
      _ = (bs ++ rest).take bs.length := by rw [← h, memRead_take hlen]
      _ = bs := List.take_left
  exact ⟨_, hbs ▸ (List.take_append_drop _ _).symm⟩

/-- In DISPATCH before `LEN` the step is an opcode's (R59). -/
theorem action_of_dispatch {s : State} (hr : s.pins.rst = false) (hf : s.fsm = .dispatch) (hpc : s.pc < s.len) :
    action s = .opcode := by
  simp [action, hr, hf, hpc, Nat.ne_of_lt hpc]

/-- In HEADER at address 0 the step is the header's (R51). -/
theorem action_of_header {s : State} (hr : s.pins.rst = false) (hf : s.fsm = .header) (hpc : s.pc = 0) : action s = .hdr := by
  simp [action, hr, hf, hpc]

/-- Settles O7: the unit's encoding begins the fetch window too, so the fetch decodes the same unit. -/
theorem stepRunsTheDecodedOpcode : Obligations.StepRunsTheDecodedOpcode := by
  intro s i rest hr hf hpc h
  obtain ⟨hi, hw⟩ := decodeOpcode_legal h
  have hfit : (encode i).length ≤ Config.longestOpcode := by
    rw [encode_length]
    exact (unitLength_bounds hi).2
  obtain ⟨more, hwin⟩ := window_begins (Nat.le_of_lt hpc) (encode_of_decodeOpcode h).symm hfit
  have hfetch : fetchOpcode s = .ok (i, more) := by
    rw [fetchOpcode, hwin]
    exact decodeInvertsEncodeForOpcodes i more hi hw
  exact step_of_opcode (action_of_dispatch hr hf hpc) hfetch

/-- Settles O8, likewise: a header's encoding is as long as the window. -/
theorem stepRunsTheDecodedHeader : Obligations.StepRunsTheDecodedHeader := by
  intro s i rest hr hf hpc h
  have hi : i.isHeader = true := by
    obtain ⟨m, w, t, c, cs, rfl⟩ := decodeHeader_isHeader h
    rfl
  have hfit : (encode i).length ≤ Config.headerLen := by
    obtain ⟨m, w, t, c, cs, rfl⟩ := exists_hdr_of_isHeader hi
    exact Nat.le_refl 14
  have hbytes : memRead s.input s.pc (s.len - s.pc) = encode i ++ rest := by
    rw [hpc, Nat.sub_zero, encode_of_decodeHeader h]
  obtain ⟨more, hwin⟩ := window_begins (by omega) hbytes hfit
  have hfetch : fetchHeader s = .ok (i, more) := by
    rw [fetchHeader, hwin]
    exact decodeInvertsEncodeForHeaders i more hi
  exact step_of_fetchHeader (action_of_header hr hf hpc) hfetch

/-! ### A unit placed where it is fetched (log 10) -/

/-- Bytes that were written are read back. -/
theorem memRead_writeBytes {m : Memory} (hm : m.wf = true) (a : Nat) (bs : List Byte) :
    memRead (m.writeBytes a bs) a bs.length = bs := by
  refine List.ext_getElem (memRead_length _ _ _) fun k _ hk => ?_
  simp [memRead, Memory.read_writeBytes hm, hk]

/-- The fetch of a placed header is the decoding of its bytes. -/
theorem fetchHeader_placeHeader {s : State} (hm : s.input.wf = true) {bs : List Byte}
    (hlen : bs.length = Config.headerLen) : fetchHeader (placeHeader bs s) = decodeHeader bs := by
  have hwin : window bs.length (placeHeader bs s) = bs := by
    rw [window_of_le (by simp)]
    exact memRead_writeBytes hm 0 bs
  rw [fetchHeader, ← hlen, hwin]

/-- The fetch of a placed opcode is the decoding of its bytes. -/
theorem fetchOpcode_placeOpcode {s : State} (hm : s.input.wf = true) {bs : List Byte}
    (hlen : bs.length = Config.longestOpcode) : fetchOpcode (placeOpcode bs s) = decodeOpcode bs := by
  have hwin : window bs.length (placeOpcode bs s) = bs := by
    rw [window_of_le (by simp)]
    exact memRead_writeBytes hm (opcodeAddress s) bs
  rw [fetchOpcode, ← hlen, hwin]

/-- A table word is laid out in as many bytes as its row asks for. -/
theorem tableBytes_length (n w : Nat) : (tableBytes n w).length = n := by
  simp [tableBytes]

/-- What a table word is decoded to, by the kind of its row. -/
theorem decodeTableWord_cases {nbits w : Nat} {i : Instr} (h : decodeTableWord nbits w = some i) :
    (isHeaderRow nbits = true ∧ ∃ rest, decodeHeader (tableBytes Config.headerLen (w % 2 ^ nbits)) = .ok (i, rest)) ∨
    (isHeaderRow nbits = false ∧
      ∃ rest, decodeOpcode (tableBytes Config.longestOpcode (w % 2 ^ nbits)) = .ok (i, rest)) := by
  unfold decodeTableWord at h
  cases hrow : isHeaderRow nbits with
  | true =>
    simp only [hrow, if_true] at h
    split at h
    · rename_i hdec
      exact .inl ⟨rfl, _, Option.some.inj h ▸ hdec⟩
    · cases h
  | false =>
    simp only [hrow, Bool.false_eq_true, if_false] at h
    split at h
    · rename_i hdec
      exact .inr ⟨rfl, _, Option.some.inj h ▸ hdec⟩
    · cases h

/-- Settles O11: the next step fetches exactly the placed bytes, which decode to the unit of the word. -/
theorem placedTableWordRunsNext : Obligations.PlacedTableWordRunsNext := by
  intro s nbits w i hm h
  obtain ⟨hrow, rest, hdec⟩ | ⟨hrow, rest, hdec⟩ := decodeTableWord_cases h
  · rw [State.withFetchWord, if_pos hrow]
    rw [← fetchHeader_placeHeader hm (tableBytes_length _ _)] at hdec
    exact step_of_fetchHeader (action_of_header rfl rfl rfl) hdec
  · rw [State.withFetchWord, if_neg (by simp [hrow])]
    rw [← fetchOpcode_placeOpcode hm (tableBytes_length _ _)] at hdec
    refine step_of_opcode (action_of_dispatch rfl rfl ?_) hdec
    rw [placeOpcode_pc, placeOpcode_len, tableBytes_length]
    exact lt_max_of_lt_right (Nat.lt_add_of_pos_right (by decide))

end Sys2Proof.Machine

/-! The header step (R51 to R57): what its fourteen bytes do, and the checks in address order. -/

namespace Sys2Proof.Machine

/-! ### A legal header -/

/-- A header is legal when its magic, channel byte and colour-space byte are (R38). -/
theorem hdr_wellFormed_iff (m w h : Word32) (c cs : Byte) : (Instr.hdr m w h c cs).wellFormed = true ↔
    m = Config.magic ∧ (c = 3 ∨ c = 4) ∧ (cs = 0 ∨ cs = 1) := by
  simp [Instr.wellFormed, legalMagic, legalChannelByte, legalColorspaceByte, and_assoc]

/-- A legal header that is whole completes. -/
theorem exec_hdr_of_wellFormed {m w h : Word32} {c cs : Byte} {s : State}
    (hw : (Instr.hdr m w h c cs).wellFormed = true) (hlen : s.pc + 14 ≤ s.len) :
    exec (.hdr m w h c cs) s = .next (headerParsed w h c cs s) := by
  obtain ⟨hm, hc, hcs⟩ := (hdr_wellFormed_iff m w h c cs).1 hw
  rw [exec_hdr, if_neg (by omega), if_neg (not_not.2 hm), if_neg (by omega), if_neg (by omega), if_neg (by omega),
    if_neg (by tauto), if_neg (by omega), if_neg (by tauto), headerParsed]

/-- The `channels` register holds a legal channel byte whole. -/
theorem setWidth_three_toNat {c : Byte} (h : c = 3 ∨ c = 4) : (c.setWidth 3).toNat = c.toNat := by
  obtain rfl | rfl := h <;> rfl

/-- The `colorspace` register holds a legal colour-space byte whole. -/
theorem setWidth_one_toNat {cs : Byte} (h : cs = 0 ∨ cs = 1) : (cs.setWidth 1).toNat = cs.toNat := by
  obtain rfl | rfl := h <;> rfl

/-- Settles O13: the completed header is `headerParsed`, which writes the registers of R57 and no other. -/
theorem hdrWritesTheHeaderRegisters : Obligations.HdrWritesTheHeaderRegisters := by
  intro m w h c cs s hw hlen
  obtain ⟨-, hc, hcs⟩ := (hdr_wellFormed_iff m w h c cs).1 hw
  exact ⟨headerParsed w h c cs s, exec_hdr_of_wellFormed hw hlen, rfl, rfl, setWidth_three_toNat hc,
    setWidth_one_toNat hcs, rfl, rfl, ⟨rfl, rfl, rfl, rfl, rfl⟩, rfl, rfl, rfl, fun _ => rfl⟩

/-! ### The magic as a number and as bytes (R27, R52) -/

/-- Four bytes are the magic number exactly when they are its bytes in address order. -/
theorem bigEndian32_eq_magic_iff (b0 b1 b2 b3 : Byte) :
    bigEndian32 b0 b1 b2 b3 = Config.magic ↔ [b0, b1, b2, b3] = magicBytes := by
  have hmagic : bytesOfWord32 Config.magic = magicBytes := by decide
  constructor
  · intro h
    rw [← hmagic, ← h, bytesOfWord32_bigEndian32]
  · intro h
    simp only [magicBytes, List.cons.injEq] at h
    obtain ⟨rfl, rfl, rfl, rfl, -⟩ := h
    rfl

/-- `MemRead` of four bytes, written out. -/
theorem memRead_four (m : Memory) (a : Nat) :
    memRead m a 4 = [m.read a, m.read (a + 1), m.read (a + 2), m.read (a + 3)] := rfl

/-! ### The step from HEADER -/

/-- The pseudocode of R51 at address 0 as one chain of tests, in address order. -/
theorem streamHdr_of_pc_zero {s : State} (hpc : s.pc = 0) : streamHdr s =
    if s.len < 4 then raise .unexpectedEndOfInput s
    else if memRead s.input 0 4 ≠ magicBytes then raise .invalidMagic { s with pc := 4 }
    else if s.len < 8 then raise .unexpectedEndOfInput { s with pc := 4 }
    else if s.len < 12 then raise .unexpectedEndOfInput { s with pc := 8 }
    else if s.len < 13 then raise .unexpectedEndOfInput { s with pc := 12 }
    else if s.input.read 12 ≠ 3 ∧ s.input.read 12 ≠ 4 then raise .invalidChannelCount { s with pc := 13 }
    else if s.len < 14 then raise .unexpectedEndOfInput { s with pc := 13 }
    else if s.input.read 13 ≠ 0 ∧ s.input.read 13 ≠ 1 then raise .invalidColorSpace { s with pc := 14 }
    else .next (headerParsed
      (bigEndian32 (s.input.read 4) (s.input.read 5) (s.input.read 6) (s.input.read 7))
      (bigEndian32 (s.input.read 8) (s.input.read 9) (s.input.read 10) (s.input.read 11))
      (s.input.read 12) (s.input.read 13) s) := by
  rw [streamHdr]
  by_cases h4 : s.len < 4
  · rw [if_pos h4, readBytes_of_lt (by omega)]
  rw [if_neg h4, readBytes_of_le (by omega)]
  simp only [headerParsed, hpc, Nat.zero_add]
  split
  · rfl
  by_cases h8 : s.len < 8
  · rw [if_pos h8, readU32BE_of_lt (by simp only; omega)]
  rw [if_neg h8, readU32BE_of_le (by simp only; omega)]
  dsimp only
  by_cases h12 : s.len < 12
  · rw [if_pos h12, readU32BE_of_lt (by simp only; omega)]
  rw [if_neg h12, readU32BE_of_le (by simp only; omega)]
  dsimp only
  by_cases h13 : s.len < 13
  · rw [if_pos h13, readByte_of_lt (by simp only; omega)]
  rw [if_neg h13, readByte_of_le (by simp only; omega)]
  dsimp only
  split
  · rfl
  by_cases h14 : s.len < 14
  · rw [if_pos h14, readByte_of_lt (by simp only; omega)]
  rw [if_neg h14, readByte_of_le (by simp only; omega)]

/-- Settles O9: test by test, a byte that has passed its length test is latched as the byte of `IN`. -/
theorem headerStepIsTheStreamPseudocode : Obligations.HeaderStepIsTheStreamPseudocode := by
  intro s hr hf hpc
  rw [step_of_hdr (action_of_header hr hf hpc), exec_hdr, streamHdr_of_pc_zero hpc]
  simp only [hpc, Nat.zero_add, Nat.sub_zero]
  refine ite_congr rfl (fun _ => rfl) fun h4 => ?_
  refine ite_congr ?_ (fun _ => rfl) fun _ => ?_
  · simp (disch := omega) only [latch_of_lt, ne_eq, bigEndian32_eq_magic_iff, memRead_four, Nat.zero_add]
  refine ite_congr rfl (fun _ => rfl) fun _ => ?_
  refine ite_congr rfl (fun _ => rfl) fun h12 => ?_
  refine ite_congr rfl (fun _ => rfl) fun h13 => ?_
  refine ite_congr (by rw [latch_of_lt (by omega)]) (fun _ => rfl) fun _ => ?_
  refine ite_congr rfl (fun _ => rfl) fun h14 => ?_
  refine ite_congr (by rw [latch_of_lt (by omega)]) (fun _ => rfl) fun _ => ?_
  simp (disch := omega) only [latch_of_lt, headerParsed, hpc, Nat.zero_add]

/-- With its fourteen bytes before `LEN`, the header that is run is the one that stands in `IN` (R31). -/
theorem step_of_whole_header {s : State} (hr : s.pins.rst = false) (hf : s.fsm = .header) (hpc : s.pc = 0)
    (hlen : 14 ≤ s.len) : step s = exec (.hdr
      (bigEndian32 (s.input.read 0) (s.input.read 1) (s.input.read 2) (s.input.read 3))
      (bigEndian32 (s.input.read 4) (s.input.read 5) (s.input.read 6) (s.input.read 7))
      (bigEndian32 (s.input.read 8) (s.input.read 9) (s.input.read 10) (s.input.read 11))
      (s.input.read 12) (s.input.read 13)) s := by
  rw [step_of_hdr (action_of_header hr hf hpc)]
  simp (disch := omega) only [hpc, Nat.zero_add, latch_of_lt]

/-- Settles O14: the header in `IN` is legal, so it writes its registers and keeps the start values of all others. -/
theorem headerStepFromStartValues : Obligations.HeaderStepFromStartValues := by
  intro s hr hf hs hlen hmagic hc hcs
  have hw := (hdr_wellFormed_iff
    (bigEndian32 (s.input.read 0) (s.input.read 1) (s.input.read 2) (s.input.read 3))
    (bigEndian32 (s.input.read 4) (s.input.read 5) (s.input.read 6) (s.input.read 7))
    (bigEndian32 (s.input.read 8) (s.input.read 9) (s.input.read 10) (s.input.read 11)) _ _).2
    ⟨(bigEndian32_eq_magic_iff _ _ _ _).2 hmagic, hc, hcs⟩
  have hpc : s.pc + 14 ≤ s.len := by rw [hs.pc]; exact hlen
  obtain ⟨t, hx, hwidth, hheight, hch, hspace, hfsm, hpc', hkept, herr, hlen', -, -⟩ :=
    hdrWritesTheHeaderRegisters _ _ _ _ _ s hw hpc
  refine ⟨t, (step_of_whole_header hr hf hs.pc hlen).trans hx, hfsm, by rw [hpc', hs.pc], ?_, ?_, hch, hspace,
    hkept.prev.trans hs.prev, fun idx => ?_, hkept.pixCount.trans hs.pixCount, hkept.malformed.trans hs.malformed,
    hkept.out.trans hs.out, herr.trans hs.errCode, hlen'⟩
  · rw [hwidth, bigEndian32_toNat]
  · rw [hheight, bigEndian32_toNat]
  · rw [hkept.cache, hs.cache]

/-! ### The header's errors (R52 to R56, R84) -/

/-- A step that raises an error with the cursor moved to `p` changes nothing else. -/
theorem exists_raisedAt {s u : State} {k : ErrorKind} {p : Nat} (h : step s = raise k u) (hu : u = { s with pc := p }) :
    ∃ t, step s = .next t ∧ RaisedAt (errorCode k) p s t :=
  ⟨_, h, by rw [RaisedAt, hu]⟩

/-- Settles O26: each clause's tests, in address order, are failed up to the one that raises. -/
theorem headerErrorsInAddressOrder : Obligations.HeaderErrorsInAddressOrder := by
  intro s hr hf hpc
  have hstep := headerStepIsTheStreamPseudocode s hr hf hpc
  rw [streamHdr_of_pc_zero hpc] at hstep
  refine ⟨fun h => ?_, fun ⟨h4, hm⟩ => ?_, fun hm => ?_⟩
  · rw [if_pos h] at hstep
    exact exists_raisedAt hstep (by rw [← hpc])
  · have wrong : memRead s.input 0 4 ≠ magicBytes := hm
    rw [if_neg (by omega), if_pos wrong] at hstep
    exact exists_raisedAt hstep rfl
  have magic : ¬ memRead s.input 0 4 ≠ magicBytes := not_not.2 hm
  refine ⟨fun ⟨h4, h8⟩ => ?_, fun ⟨h8, h12⟩ => ?_, fun h12 => ?_, fun ⟨h13, hc⟩ => ?_,
    fun hc => ⟨fun h13 => ?_, fun ⟨h14, hcs⟩ => ?_⟩⟩
  · rw [if_neg (by omega), if_neg magic, if_pos h8] at hstep
    exact exists_raisedAt hstep rfl
  · rw [if_neg (by omega), if_neg magic, if_neg (by omega), if_pos h12] at hstep
    exact exists_raisedAt hstep rfl
  · rw [if_neg (by omega), if_neg magic, if_neg (by omega), if_neg (by omega), if_pos (by omega)] at hstep
    exact exists_raisedAt hstep rfl
  · rw [if_neg (by omega), if_neg magic, if_neg (by omega), if_neg (by omega), if_neg (by omega), if_pos hc] at hstep
    exact exists_raisedAt hstep rfl
  · rw [if_neg (by omega), if_neg magic, if_neg (by omega), if_neg (by omega), if_neg (by omega), if_neg (by tauto),
      if_pos (by omega)] at hstep
    exact exists_raisedAt hstep rfl
  · rw [if_neg (by omega), if_neg magic, if_neg (by omega), if_neg (by omega), if_neg (by omega), if_neg (by tauto),
      if_neg (by omega), if_pos hcs] at hstep
    exact exists_raisedAt hstep rfl

end Sys2Proof.Machine

/-! The opcode step (R58 to R63): the step from DISPATCH as the pseudocode read from the stream, an opcode cut short and a whole one,
the frame of an opcode, the code no step sets, and the end of a session (R85, R89, R101). -/

namespace Sys2Proof.Machine

/-! ### The step from DISPATCH (R58, R59) -/

/-- At `LEN` the step is EOS (R58). -/
theorem step_of_dispatch_at_len {s : State} (hr : s.pins.rst = false) (hf : s.fsm = .dispatch) (hpc : s.pc = s.len) :
    step s = .next (eosStep s) := by
  have ha : action s = .eos := by simp [action, hr, hf, hpc]
  unfold step
  rw [ha]

/-- No tag asks for more than the four operand bytes of RGBA (R41). -/
theorem operandBytes_le (op : Op) : operandBytes op ≤ 4 := by
  cases op <;> simp [operandBytes]

/-- Before `LEN` the step is the meaning of an opcode of the length that its tag gives (R49, R59). -/
theorem step_of_dispatch_before_len {s : State} (hr : s.pins.rst = false) (hf : s.fsm = .dispatch) (hpc : s.pc < s.len) :
    ∃ i, i.isHeader = false ∧ unitLength i = operandBytes (dispatch (s.input.read s.pc)) + 1 ∧ step s = exec i s := by
  obtain ⟨i, hdec, hlen⟩ := decodeOperands_of_le
    (bs := [latch s (s.pc + 1), latch s (s.pc + 2), latch s (s.pc + 3), latch s (s.pc + 4)])
    (dispatch_answerable (s.input.read s.pc)) (operandBytes_le _)
  rw [← latch_of_lt hpc, ← fetchOpcode_eq] at hdec
  exact ⟨i, (decodeOpcode_legal hdec).1, hlen, step_of_opcode (action_of_dispatch hr hf hpc) hdec⟩

/-- Settles O31: EOS at `LEN`; before it the opcode that is run leaves the control state or raises an error. -/
theorem loopEndsExactlyAtExhaustion : Obligations.LoopEndsExactlyAtExhaustion := by
  refine fun s hr hf => ⟨step_of_dispatch_at_len hr hf, fun hpc => ?_⟩
  obtain ⟨i, hi, -, hstep⟩ := step_of_dispatch_before_len hr hf hpc
  obtain ⟨t, hx⟩ := exec_total i s
  exact ⟨t, hstep.trans hx, hf ▸ exec_opcode_fsm hi hx⟩

/-- Settles O27: the unit's length is its tag's, and an opcode pushes at least one pixel. -/
theorem opcodeCutShortRaisesPastItsTag : Obligations.OpcodeCutShortRaisesPastItsTag := by
  intro s hr hf hpc tag n
  obtain ⟨i, hi, hlen, hstep⟩ := step_of_dispatch_before_len hr hf hpc
  have hn : unitLength i = n := hlen.trans (operandBytes_dispatch tag)
  rw [exec_opcode hi, hn] at hstep
  refine ⟨fun hcut => ?_, fun hwhole => ?_⟩
  · rw [if_neg (Nat.not_le_of_lt hcut), if_pos hpc] at hstep
    exact exists_raisedAt hstep rfl
  · rw [if_pos hwhole] at hstep
    refine ⟨_, hstep, ?_, ?_, ?_⟩
    · rw [pushN_fsm, pastUnit_fsm, hf]
    · rw [pushN_pc, pastUnit_pc, hn]
    · rw [pushN_pixCount, pastUnit_pixCount]
      exact Nat.lt_add_of_pos_right (pushes_pos hi)

/-! ### The opcode step as the pseudocode of the stream (R59, R64, R65, R68) -/

/-- RGB on the latched bytes after a tag is the pseudocode of R64 on the stream. -/
theorem exec_rgb_eq_streamRgb {s : State} (hpc : s.pc < s.len) :
    exec (.rgb (latch s (s.pc + 1)) (latch s (s.pc + 2)) (latch s (s.pc + 3))) s = streamRgb { s with pc := s.pc + 1 } := by
  rw [exec, execRgb, consume_of_le (by omega), streamRgb]
  by_cases h : s.len - (s.pc + 1) < 3
  · rw [consume_of_lt h, readBytes_of_lt h]
  · rw [consume_of_le (Nat.le_of_not_lt h), readBytes_of_le (Nat.le_of_not_lt h), latch_of_lt (by omega),
      latch_of_lt (by omega), latch_of_lt (by omega)]
    rfl

/-- RGBA likewise (R65). -/
theorem exec_rgba_eq_streamRgba {s : State} (hpc : s.pc < s.len) :
    exec (.rgba (latch s (s.pc + 1)) (latch s (s.pc + 2)) (latch s (s.pc + 3)) (latch s (s.pc + 4))) s =
      streamRgba { s with pc := s.pc + 1 } := by
  rw [exec, execRgba, consume_of_le (by omega), streamRgba]
  by_cases h : s.len - (s.pc + 1) < 4
  · rw [consume_of_lt h, readBytes_of_lt h]
  · rw [consume_of_le (Nat.le_of_not_lt h), readBytes_of_le (Nat.le_of_not_lt h), latch_of_lt (by omega),
      latch_of_lt (by omega), latch_of_lt (by omega), latch_of_lt (by omega)]
    rfl

/-- LUMA likewise (R68). -/
theorem exec_luma_eq_streamLuma {s : State} (hpc : s.pc < s.len) (fg : BitVec 6) :
    exec (.luma fg ((latch s (s.pc + 1)).extractLsb' 4 4) ((latch s (s.pc + 1)).extractLsb' 0 4)) s =
      streamLuma fg { s with pc := s.pc + 1 } := by
  rw [exec, execLuma, consume_of_le (by omega), streamLuma]
  by_cases h : s.len - (s.pc + 1) < 1
  · rw [consume_of_lt h, readByte_of_lt h]
  · rw [consume_of_le (Nat.le_of_not_lt h), readByte_of_le (Nat.le_of_not_lt h), latch_of_lt (by omega)]

/-- Settles O10, by what the tag dispatches to: the unit that is fetched is that opcode on the latched bytes. -/
theorem opcodeStepIsTheStreamPseudocode : Obligations.OpcodeStepIsTheStreamPseudocode := by
  intro s hr hf hpc
  have ha : action s = .opcode := action_of_dispatch hr hf hpc
  have hfetch := fetchOpcode_eq s
  have hone : 1 ≤ s.len - s.pc := by omega
  rw [latch_of_lt hpc] at hfetch
  rw [streamOpcode, readByte_of_le hone]
  dsimp only
  cases hop : dispatch (s.input.read s.pc) <;> rw [hop] at hfetch
  case unknown => exact absurd (dispatch_answerable (s.input.read s.pc)) (by simp [hop, Op.answerable])
  case rgb => exact (step_of_opcode ha hfetch).trans (exec_rgb_eq_streamRgb hpc)
  case rgba => exact (step_of_opcode ha hfetch).trans (exec_rgba_eq_streamRgba hpc)
  case luma fg => exact (step_of_opcode ha hfetch).trans (exec_luma_eq_streamLuma hpc fg)
  case index idx | diff fr fg fb | run n => exact (step_of_opcode ha hfetch).trans (consume_of_le hone _)

/-! ### The frame of an opcode, and the code no step sets (R35, R60, R63, R89) -/

/-- Settles O43: an opcode that completes writes only what a push and its cursor and flag update write, and one cut short only
enters ERROR. -/
theorem opcodesKeepTheControlRegisters : Obligations.OpcodesKeepTheControlRegisters := by
  intro i s t hi hx
  obtain ⟨-, rfl⟩ | ⟨-, rfl⟩ := exec_opcode_cases hi hx
  · rw [pushN_pos (pushes_pos hi)]
    exact ⟨rfl, rfl, rfl, rfl, rfl, rfl, fun _ => rfl, .inl ⟨rfl, rfl⟩⟩
  · exact ⟨rfl, rfl, rfl, rfl, rfl, rfl, fun _ => rfl, .inr ⟨rfl, rfl, rfl, rfl, rfl, rfl, rfl⟩⟩

/-- HDR leaves the error code or sets that of an error it can raise. -/
theorem exec_hdr_errCode {m w h : Word32} {c cs : Byte} {s t : State} (hx : exec (.hdr m w h c cs) s = .next t) :
    t.errCode = s.errCode ∨ ∃ k, hdrErrorAt k ≠ [] ∧ t.errCode = errorCode k := by
  obtain ⟨k, d, hd, -, e⟩ | ⟨-, -, -, -, e⟩ := exec_hdr_cases m w h c cs s
  · obtain rfl := Host.Outcome.next.inj ((raise_eq k _).symm.trans (e.symm.trans hx))
    exact .inr ⟨k, List.ne_nil_of_mem hd, rfl⟩
  · obtain rfl := Host.Outcome.next.inj (e.symm.trans hx)
    exact .inl rfl

/-- Settles O30, by the step that is taken: no error that one raises is a `CorruptStream`. -/
theorem corruptStreamIsNeverRaised : Obligations.CorruptStreamIsNeverRaised := by
  intro s t h hs
  obtain ⟨-, rfl⟩ | ⟨-, rfl⟩ | ⟨-, rfl⟩ | ⟨-, m, w, ht, c, cs, hx⟩ | ⟨-, rfl⟩ | ⟨-, i, hi, -, hx⟩ | ⟨-, hv⟩ :=
    step_cases h
  · simp
  · simp
  · exact hs
  · obtain e | ⟨k, hk, e⟩ := exec_hdr_errCode hx
    · rwa [e]
    · rw [e]
      intro h5
      obtain rfl : k = .corruptStream := errorCode_injective h5
      exact hk rfl
  · exact hs
  · obtain ⟨-, -, -, -, -, -, -, ⟨-, e⟩ | ⟨-, e, -⟩⟩ := opcodesKeepTheControlRegisters i s t hi hx
    · rwa [e]
    · simp [e]
  · obtain ⟨-, rfl⟩ | ⟨-, -, -, rfl⟩ | ⟨-, -, -, rfl⟩ := validateStep_cases hv
    · simp
    · simp
    · exact hs

/-! ### The end of a session (R61, R101) -/

/-- A run of at most `n` steps ends the session. -/
def EndsWithin (n : Nat) (s : State) : Prop :=
  ∃ (k : Nat) (t : State), k ≤ n ∧ Host.Core.run Sys2Proof.core k s = .next t ∧ ended t

/-- A session that has ended takes no step to end. -/
theorem endsWithin_of_ended {s : State} (h : ended s) (n : Nat) : EndsWithin n s := ⟨0, s, Nat.zero_le n, rfl, h⟩

/-- A step takes one step. -/
theorem endsWithin_of_step {n : Nat} {s t : State} (h : step s = .next t) (ht : EndsWithin n t) : EndsWithin (n + 1) s := by
  obtain ⟨k, u, hk, hrun, hu⟩ := ht
  exact ⟨k + 1, u, Nat.succ_le_succ hk, (run_of_next (M := Sys2Proof.core) h).trans hrun, hu⟩

/-- What ends within a bound ends within a larger one. -/
theorem EndsWithin.mono {m n : Nat} {s : State} (h : EndsWithin m s) (hmn : m ≤ n) : EndsWithin n s := by
  obtain ⟨k, t, hk, hrun, ht⟩ := h
  exact ⟨k, t, Nat.le_trans hk hmn, hrun, ht⟩

/-- A raised error ends the session. -/
theorem UnitRaised.ended {s t : State} (h : UnitRaised s t) : ended t := by
  obtain ⟨k, d, -, -, rfl⟩ := h
  exact .inr rfl

/-- VALIDATE ends the session. -/
theorem endsWithin_of_validate {s : State} (hr : s.pins.rst = false) (hf : s.fsm = .validate) : EndsWithin 1 s := by
  have ha : action s = .validate := by simp [action, hr, hf]
  obtain ⟨t, h⟩ := step_total_of_not_stuck (s := s) (by simp [ha])
  exact endsWithin_of_step h (endsWithin_of_ended (step_fsm_of_validate hr hf h) 0)

/-- At `LEN` two steps remain, EOS and VALIDATE. -/
theorem endsWithin_of_dispatch_at_len {s : State} (hr : s.pins.rst = false) (hf : s.fsm = .dispatch) (hpc : s.pc = s.len) :
    EndsWithin 2 s :=
  endsWithin_of_step (step_of_dispatch_at_len hr hf hpc) (endsWithin_of_validate hr rfl)

/-- Before them the loop takes at most a step for each byte before `LEN`: an opcode that completes consumes at least its tag. -/
theorem endsWithin_of_dispatch {n : Nat} {s : State} (hr : s.pins.rst = false) (hf : s.fsm = .dispatch) (hpc : s.pc ≤ s.len)
    (hn : s.len ≤ s.pc + n) : EndsWithin (n + 2) s := by
  induction n generalizing s with
  | zero => exact endsWithin_of_dispatch_at_len hr hf (Nat.le_antisymm hpc hn)
  | succ n ih =>
    obtain hend | hlt := Nat.eq_or_lt_of_le hpc
    · exact (endsWithin_of_dispatch_at_len hr hf hend).mono (Nat.le_add_left 2 (n + 1))
    obtain ⟨i, hi, -, hstep⟩ := step_of_dispatch_before_len hr hf hlt
    obtain ⟨t, hx⟩ := exec_total i s
    refine endsWithin_of_step (hstep.trans hx) ?_
    have hrt : t.pins.rst = false := by rw [(exec_env hx).1, hr]
    obtain hraised | ⟨hle, rfl⟩ := exec_opcode_next_cases hi hx
    · exact endsWithin_of_ended hraised.ended _
    · have htag : 1 ≤ unitLength i := (unitLength_bounds hi).1
      refine ih hrt ?_ ?_ ?_
      · rw [pushN_fsm, pastUnit_fsm, hf]
      · simpa using hle
      · simp only [pushN_pc, pastUnit_pc, pushN_len, pastUnit_len]
        omega

/-- Settles O53: HDR ends the session or leaves the cursor at 14, with at most `LEN - 14` opcodes to come. -/
theorem sessionEndsWithinItsBound : Obligations.SessionEndsWithinItsBound := by
  intro s hs hr hf
  obtain ⟨hpc, -⟩ := hs.fresh (.inr hf)
  have hstep := step_of_hdr (action_of_header hr hf hpc)
  obtain ⟨t, hx⟩ := exec_total (.hdr _ _ _ _ _) s
  refine endsWithin_of_step (n := (s.len - 14) + 2) (hstep.trans hx) ?_
  obtain hraised | ⟨hlen, -, rfl⟩ := exec_hdr_next_cases hx
  · exact endsWithin_of_ended hraised.ended _
  · exact endsWithin_of_dispatch hr rfl hlen (by simp only [headerParsed]; omega)

end Sys2Proof.Machine

/-! The opcodes in the terms of their statements: pushes as `Pushed` words them, the frame of an opcode that completes, one cut
short, and the literal opcodes RGB and RGBA (R64, R65, R71 to R73, R85). -/

namespace Sys2Proof.Machine

/-! ### The push rule (R71 to R73) -/

/-- The slot of a pixel in the words of R72: the slot whose number is the hash sum mod 64. -/
theorem eq_slotIndex_iff (i : BitVec 6) (p : Pixel) :
    i = slotIndex p ↔ i.toNat = (p.r.toNat * 3 + p.g.toNat * 5 + p.b.toNat * 7 + p.a.toNat * 11) % 64 := by
  rw [← slotIndex_toNat, BitVec.toNat_inj]

/-- At least one push of a pixel does what R71, R72 and R73 say. -/
theorem pushed_pushN {n : Nat} (hn : 0 < n) (p : Pixel) (s : State) : Pushed n p s (pushN n p s) := by
  rw [pushN_pos hn]
  exact {
    out := rfl
    pixCount := rfl
    prev := rfl
    cache := fun i => by
      rw [readCache_writeCache]
      simp only [eq_slotIndex_iff] }

/-- Pushes leave every control register, `LEN`, the pins and the buffer. -/
theorem kept_pushN (n : Nat) (p : Pixel) (s : State) : Kept s (pushN n p s) := by
  cases n with
  | zero => exact ⟨rfl, rfl, rfl, rfl, rfl, rfl, rfl, rfl, fun _ => rfl⟩
  | succ n =>
    rw [pushN_succ_eq]
    exact ⟨rfl, rfl, rfl, rfl, rfl, rfl, rfl, rfl, fun _ => rfl⟩

/-! ### An opcode that completes, and one cut short (R62, R85) -/

/-- An opcode with its whole unit before `LEN` pushes its pixel, moves the cursor past the unit, adds its own flag to `malformed`,
and keeps the rest. -/
theorem exec_opcode_pushed {i : Instr} (hi : i.isHeader = false) {s : State} (h : s.pc + unitLength i ≤ s.len) :
    ∃ t, exec i s = .next t ∧ Pushed (pushes i) (pushedPixel i s) s t ∧ Kept s t ∧ t.pc = s.pc + unitLength i ∧
      t.malformed = (s.malformed || flags i s) := by
  have hpushed := pushed_pushN (pushes_pos hi) (pushedPixel i s) (pastUnit i s)
  have hkept := kept_pushN (pushes i) (pushedPixel i s) (pastUnit i s)
  exact ⟨_, exec_opcode_of_le hi h, { hpushed with }, { hkept with }, pushN_pc .., pushN_malformed ..⟩

/-- An opcode with its tag but not its whole unit before `LEN` raises `UnexpectedEndOfInput` past the tag and does nothing else. -/
theorem exec_opcode_raisedAt {i : Instr} (hi : i.isHeader = false) {s : State} (htag : s.pc < s.len)
    (hcut : s.len < s.pc + unitLength i) : ∃ t, exec i s = .next t ∧ RaisedAt 1 (s.pc + 1) s t := by
  rw [exec_opcode hi, if_neg (Nat.not_le_of_lt hcut), if_pos htag, raise_eq]
  exact ⟨_, rfl, rfl⟩

/-! ### The literal opcodes (R64, R65) -/

/-- Settles O15: RGB is a four-byte opcode with one push and no flag of its own. -/
theorem rgbPushesWithPreviousAlpha : Obligations.RgbPushesWithPreviousAlpha := by
  intro r g b s
  have hi : (Instr.rgb r g b).isHeader = false := rfl
  refine ⟨fun hwhole => ?_, fun ⟨htag, hcut⟩ => exec_opcode_raisedAt hi htag hcut⟩
  obtain ⟨t, hx, hpushed, hkept, hpc, hm⟩ := exec_opcode_pushed hi hwhole
  exact ⟨t, hx, hpushed, hkept, hpc, hm.trans (Bool.or_false _)⟩

/-- Settles O16: RGBA is a five-byte opcode with one push, and its own flag says whether `channels` is 3. -/
theorem rgbaPushesAndFlagsThreeChannels : Obligations.RgbaPushesAndFlagsThreeChannels := by
  intro r g b a s
  have hi : (Instr.rgba r g b a).isHeader = false := rfl
  refine ⟨fun hwhole => ?_, fun ⟨htag, hcut⟩ => exec_opcode_raisedAt hi htag hcut⟩
  obtain ⟨t, hx, hpushed, hkept, hpc, hm⟩ := exec_opcode_pushed hi hwhole
  refine ⟨t, hx, hpushed, hkept, hpc, fun h3 => ?_, fun h3 => ?_⟩
  · rw [hm, flags, decide_eq_true h3, Bool.or_true]
  · rw [hm, flags, decide_eq_false h3, Bool.or_false]

end Sys2Proof.Machine

/-! The cache reference opcode INDEX (R66). -/

namespace Sys2Proof.Machine

/-- Settles O17: INDEX is a one-byte opcode with one push, of the pixel its slot held before the step, and no flag of its own. -/
theorem indexPushesItsSlot : Obligations.IndexPushesItsSlot := by
  intro idx s hwhole
  obtain ⟨t, hx, hpushed, hkept, hpc, hm⟩ := exec_opcode_pushed (i := .index idx) rfl hwhole
  exact ⟨t, hx, hpushed, hkept, hpc, hm.trans (Bool.or_false _)⟩

end Sys2Proof.Machine

/-! The delta opcodes DIFF and LUMA (R67, R68, R69 (a)). -/

namespace Sys2Proof.Machine

/-- A channel after a delta is the exact integer sum reduced mod 256: it wraps and does not clamp (R69 (a)). -/
theorem addDelta_toNat (old : Byte) (delta : Int) : ((addDelta old delta).toNat : Int) = ((old.toNat : Int) + delta) % 256 := by
  rw [addDelta, BitVec.toNat_ofInt, Int.toNat_of_nonneg (Int.emod_nonneg _ (by decide))]
  exact Int.emod_emod _ _

/-- Settles O18: DIFF is a one-byte opcode with one push and no flag of its own, and `addDelta_toNat` gives each colour channel. -/
theorem diffAddsBiasedFieldsModulo256 : Obligations.DiffAddsBiasedFieldsModulo256 := by
  intro fr fg fb s hwhole
  obtain ⟨t, hx, hpushed, hkept, hpc, hm⟩ := exec_opcode_pushed (i := .diff fr fg fb) rfl hwhole
  exact ⟨t, _, _, _, hx, addDelta_toNat .., addDelta_toNat .., addDelta_toNat .., hpushed, hkept, hpc,
    hm.trans (Bool.or_false _)⟩

/-- Settles O19: LUMA is a two-byte opcode with one push and no flag of its own, and `addDelta_toNat` gives each colour channel;
cut short, it is an opcode with only its tag before `LEN`. -/
theorem lumaAddsGreenRelativeDeltasModulo256 : Obligations.LumaAddsGreenRelativeDeltasModulo256 := by
  intro fg fro fbo s
  have hi : (Instr.luma fg fro fbo).isHeader = false := rfl
  refine ⟨fun hwhole => ?_, fun ⟨htag, hcut⟩ => exec_opcode_raisedAt hi htag hcut⟩
  obtain ⟨t, hx, hpushed, hkept, hpc, hm⟩ := exec_opcode_pushed hi hwhole
  exact ⟨t, _, _, _, hx, addDelta_toNat .., addDelta_toNat .., addDelta_toNat .., hpushed, hkept, hpc,
    hm.trans (Bool.or_false _)⟩

end Sys2Proof.Machine

/-! The repeat opcode RUN (R70, R104). -/

namespace Sys2Proof.Machine

/-- Settles O20: RUN is a one-byte opcode that pushes `prev` `n + 1` times and has no flag of its own. -/
theorem runRepeatsThePreviousPixel : Obligations.RunRepeatsThePreviousPixel := by
  intro n s _ hwhole
  obtain ⟨t, hx, hpushed, hkept, hpc, hm⟩ := exec_opcode_pushed (i := .run n) rfl hwhole
  exact ⟨t, hx, hpushed, hkept, hpc, hm.trans (Bool.or_false _)⟩

/-! ### The previous pixel and its slot (R70 (a), (b)) -/

/-- Under any channel count the start value has its effective alpha. -/
theorem effective_startPrev (c : BitVec 3) : effective c startPrev = startPrev :=
  congrArg (Pixel.mk 0 0 0) (ite_self 255)

/-- The pixel of an element with `c` components has its effective alpha: it has 255 unless `c` is 4 (R73). -/
theorem effective_fullPixel {c : BitVec 3} {p : OutPixel} (hp : components p = c.toNat) :
    effective c (fullPixel p) = fullPixel p := by
  cases p with
  | rgb r g b => exact congrArg (Pixel.mk r g b) (ite_self 255)
  | rgba r g b a =>
    have hc : c = 4 := BitVec.eq_of_toNat_eq hp.symm
    exact congrArg (Pixel.mk r g b) (if_pos hc)

/-- Every slot of the start value of the cache is all-zero (R21). -/
theorem readCache_emptyCache (j : BitVec 6) : readCache emptyCache j = ⟨0, 0, 0, 0⟩ := by
  simp [readCache, emptyCache, zero4]

/-- The slot of the pixel that was pushed last holds that pixel (R71). -/
theorem readCache_replayCache_last {out : List OutPixel} (hne : out ≠ []) :
    readCache (replayCache out) (slotIndex (lastPixel out)) = lastPixel out := by
  obtain rfl | ⟨l, p, rfl⟩ := List.eq_nil_or_concat' out
  · exact absurd rfl hne
  · rw [replayCache_append_singleton, lastPixel_append_singleton, cachePush, readCache_writeCache, if_pos rfl]

/-- `prev` already has its effective alpha, whether it is the start value or a pixel of the session. -/
theorem Inv.effective_prev {s : State} (hs : Inv s) : effective s.channels s.prev = s.prev := by
  rw [hs.prev_eq]
  obtain hout | ⟨l, p, hout⟩ := List.eq_nil_or_concat' s.out
  · rw [hout]
    exact effective_startPrev s.channels
  · have hp : components p = s.channels.toNat := hs.shape p (by simp [hout])
    rw [hout, lastPixel_append_singleton]
    exact effective_fullPixel hp

/-- Once a pixel has been produced, `prev` is in its slot. -/
theorem Inv.readCache_slotIndex_prev {s : State} (hs : Inv s) (hne : s.out ≠ []) :
    readCache s.cache (slotIndex s.prev) = s.prev := by
  rw [hs.cache_eq, hs.prev_eq, readCache_replayCache_last hne]

/-- Under the invariant a RUN keeps `prev` and writes it to its slot, once and for all its pushes. -/
theorem exec_run_writes_prev (n : BitVec 6) {s : State} (hs : Inv s) (hwhole : s.pc + 1 ≤ s.len) :
    ∃ t, exec (.run n) s = .next t ∧ t.prev = s.prev ∧ t.cache = writeCache s.cache (slotIndex s.prev) s.prev := by
  have hx := exec_opcode_of_le (i := .run n) rfl hwhole
  rw [pushN_pos (pushes_pos rfl)] at hx
  have heff : effective (pastUnit (.run n) s).channels (pushedPixel (.run n) s) = s.prev := hs.effective_prev
  rw [heff] at hx
  exact ⟨_, hx, rfl, rfl⟩

/-- Settles O25: after a pixel the slot written held `prev` already; before any, the start value goes to slot 53 of the empty
cache. -/
theorem runChangesTheCacheOnlyBeforeAnyPixel : Obligations.RunChangesTheCacheOnlyBeforeAnyPixel := by
  intro n s hs _ hpc _
  obtain ⟨t, hx, hprev, hcache⟩ := exec_run_writes_prev n hs hpc
  refine ⟨t, hx, hprev, fun hne => ?_, fun hout j => ?_⟩
  · have hslot := writeCache_self s.cache (slotIndex s.prev)
    rwa [hs.readCache_slotIndex_prev hne, ← hcache] at hslot
  · have hstart : s.prev = startPrev := by rw [hs.prev_eq, hout]; rfl
    have hempty : s.cache = emptyCache := by rw [hs.cache_eq, hout]; rfl
    have h53 : slotIndex startPrev = 53 := by decide
    rw [hcache, hstart, hempty, h53, readCache_writeCache, readCache_emptyCache]
    rfl

end Sys2Proof.Machine

/-! The push rule of one push, the slot index in six bits, and what a cache slot holds (R71 to R73, R75, R76). -/

namespace Sys2Proof.Machine

/-- Settles O21: one push is `pushN 1`, whose effect and frame `pushed_pushN` and `kept_pushN` state. -/
theorem pushAppendsSetsPrevAndWritesOneSlot : Obligations.PushAppendsSetsPrevAndWritesOneSlot := fun p s =>
  ⟨pushed_pushN Nat.one_pos p s, kept_pushN 1 p s, rfl, rfl, rfl⟩

/-! ### The slot index in six bits (R72, R76) -/

/-- The low six bits of a byte are its value mod 64. -/
theorem extractLowSix_eq_ofNat (x : Byte) : x.extractLsb' 0 6 = BitVec.ofNat 6 x.toNat :=
  BitVec.eq_of_toNat_eq (payload_toNat x)

/-- The slot index is the exact sum cut to six bits. -/
theorem slotIndex_eq_ofNat (p : Pixel) :
    slotIndex p = BitVec.ofNat 6 (p.r.toNat * 3 + p.g.toNat * 5 + p.b.toNat * 7 + p.a.toNat * 11) :=
  BitVec.eq_of_toNat_eq (slotIndex_toNat p)

/-- Settles O22: cutting to six bits commutes with sums and products, so the exact sum may be formed in six bits from the
start. -/
theorem hashIsSixBitArithmetic : Obligations.HashIsSixBitArithmetic := by
  intro p
  rw [slotIndex_eq_ofNat]
  simp only [extractLowSix_eq_ofNat, BitVec.ofNat_add, BitVec.ofNat_mul]
  rfl

/-! ### What a slot holds (R75) -/

/-- After one more push the latest pixel with an index is the one just pushed, if the index is its own. -/
theorem latestWithIndex_append_singleton (idx : BitVec 6) (out : List OutPixel) (p : OutPixel) :
    latestWithIndex idx (out ++ [p]) =
      if idx = slotIndex (fullPixel p) then some (fullPixel p) else latestWithIndex idx out := by
  by_cases h : slotIndex (fullPixel p) = idx
  · simp [latestWithIndex, h]
  · simp [latestWithIndex, h, Ne.symm h]

/-- The latest pixel with an index has that index. -/
theorem slotIndex_of_latestWithIndex {idx : BitVec 6} {out : List OutPixel} {q : Pixel}
    (h : latestWithIndex idx out = some q) : slotIndex q = idx := by
  simpa using List.find?_some h

/-- A slot of the replayed cache holds the latest pixel with its index, or the all-zero start value. -/
theorem readCache_replayCache (idx : BitVec 6) (out : List OutPixel) :
    readCache (replayCache out) idx = (latestWithIndex idx out).getD ⟨0, 0, 0, 0⟩ := by
  induction out using List.reverseRecOn with
  | nil => exact readCache_emptyCache idx
  | append_singleton out p ih =>
    rw [replayCache_append_singleton, cachePush, readCache_writeCache, latestWithIndex_append_singleton, ih]
    split <;> rfl

/-- Settles O51: the cache is what the pushes of `OUT` made it, and a slot that no push wrote is all-zero. -/
theorem cacheSlotIsTheLatestPushWithItsIndex : Obligations.CacheSlotIsTheLatestPushWithItsIndex := by
  intro s idx hs
  have hslot : readCache s.cache idx = (latestWithIndex idx s.out).getD ⟨0, 0, 0, 0⟩ := by
    rw [hs.cache_eq, readCache_replayCache]
  refine ⟨hslot, fun hne => ?_⟩
  cases hlatest : latestWithIndex idx s.out with
  | none => exact absurd (by rw [hslot, hlatest]; rfl) hne
  | some q =>
    rw [hslot, hlatest]
    exact slotIndex_of_latestWithIndex hlatest

end Sys2Proof.Machine

/-! What a step takes from its environment (R23, R101, R106): the pins and the bytes below `LEN`, and no more. -/

namespace Sys2Proof.Machine

/-! ### The same step in another environment -/

/-- With the same bytes below `LEN`, the same byte is latched at every address (R19). -/
theorem latch_withEnv (p : Pins) {m : Memory} {s : State} (hm : ∀ a, a < s.len → m.read a = s.input.read a) (a : Nat) :
    latch (withEnv p m s) a = latch s a := by
  by_cases ha : a < s.len
  · rw [latch_of_lt ha, ← hm a ha]
    exact latch_of_lt (s := withEnv p m s) ha
  · rw [latch, latch, if_neg ha]
    exact if_neg ha

/-- With the same bytes below `LEN`, the same bytes are latched from the cursor on. -/
theorem window_withEnv (n : Nat) (p : Pins) {m : Memory} {s : State} (hm : ∀ a, a < s.len → m.read a = s.input.read a) :
    window n (withEnv p m s) = window n s :=
  List.map_congr_left fun k _ => latch_withEnv p hm (s.pc + k)

/-- Which step is taken depends on `rst`, and on `start` only while no session runs (R11, R106). -/
theorem action_withEnv {p : Pins} {s : State} (m : Memory) (hr : p.rst = s.pins.rst)
    (hs : busy s = true ∨ p.start = s.pins.start) : action (withEnv p m s) = action s := by
  cases hf : s.fsm with
  | header | dispatch | validate => simp [action, withEnv, hf, hr]
  | idle | done | error =>
    have hstart : p.start = s.pins.start := by simpa [busy, hf] using hs
    simp [action, withEnv, hf, hr, hstart]

/-- START is taken only with `start` 1 and no session running (R99). -/
theorem action_ne_start {s : State} (hs : busy s = true ∨ s.pins.start = false) : action s ≠ .start := by
  intro ha
  obtain ⟨-, hf, hstart⟩ : s.pins.rst = false ∧ quiescent s ∧ s.pins.start = true := by
    simpa [ha, quiescent] using action_cases s
  obtain hf | hf | hf := hf <;> simp [busy, hf, hstart] at hs

/-- A step that is taken in either environment and is no START does the same in both. -/
theorem step_withEnv {p : Pins} {m : Memory} {s : State} (ha : action (withEnv p m s) = action s)
    (hns : action s ≠ .start) (hm : ∀ a, a < s.len → m.read a = s.input.read a) :
    step (withEnv p m s) = mapNext (withEnv p m) (step s) := by
  have hheader : fetchHeader (withEnv p m s) = fetchHeader s := congrArg decodeHeader (window_withEnv _ p hm)
  have hopcode : fetchOpcode (withEnv p m s) = fetchOpcode s := congrArg decodeOpcode (window_withEnv _ p hm)
  cases hact : action s with
  | start => exact absurd hact hns
  | reset | quiet | eos | stuck => simp only [step, ha, hact]; rfl
  | hdr =>
    rw [step_of_fetchHeader (ha.trans hact) (hheader.trans (fetchHeader_eq s)), step_of_hdr hact, exec_withEnv]
  | opcode =>
    obtain ⟨i, rest, hfetch, -, -⟩ := fetchOpcode_ok s
    rw [step_of_opcode (ha.trans hact) (hopcode.trans hfetch), step_of_opcode hact hfetch, exec_withEnv]
  | validate => simpa only [step, ha, hact] using validateStep_withEnv p m s

/-- VALIDATE leaves the buffer. -/
theorem validateStep_input {s t : State} (h : validateStep s = .next t) : t.input = s.input := by
  obtain ⟨-, rfl⟩ | ⟨-, -, -, rfl⟩ | ⟨-, -, -, rfl⟩ := validateStep_cases h <;> rfl

/-- No step writes the input buffer (R22, R35). -/
theorem step_input {s t : State} (h : step s = .next t) : t.input = s.input := by
  obtain ⟨-, rfl⟩ | ⟨-, rfl⟩ | ⟨-, rfl⟩ | ⟨-, m, w, ht, c, cs, hx⟩ | ⟨-, rfl⟩ | ⟨-, i, -, -, hx⟩ | ⟨-, hv⟩ :=
    step_cases h
  · rfl
  · rfl
  · rfl
  · exact (exec_env hx).2
  · rfl
  · exact (exec_env hx).2
  · exact validateStep_input hv

/-! ### A session and its stream (R101) -/

/-- Without START a step of two machines with the same stream is the same but for the rest of the buffer, whose bytes it neither
reads nor writes. -/
theorem step_of_sameStream {s t : State} (hstart : s.pins.start = false) (hst : SameStream s t) :
    SameOutcome (step s) (step t) := by
  obtain ⟨ht, hbytes⟩ := hst
  have hns : action s ≠ .start := action_ne_start (.inr hstart)
  have hstep : step t = mapNext (withEnv s.pins t.input) (step s) :=
    calc step t = step (withEnv s.pins t.input s) := congrArg step ht
      _ = mapNext (withEnv s.pins t.input) (step s) := step_withEnv (action_withEnv t.input rfl (.inr rfl)) hns hbytes
  rw [hstep]
  cases h : step s with
  | next s' =>
    obtain ⟨hlen | ⟨ha, -⟩, hpins⟩ := step_len_pins h
    · refine ⟨by simp only [withEnv, ← hpins], fun a ha => ?_⟩
      rw [step_input h]
      exact hbytes a (hlen ▸ ha)
    · exact absurd ha hns
  | fault e => rfl
  | refused e => rfl

/-- Settles O54, by induction on the number of steps: no step drives the pins, so none of them is a START. -/
theorem sessionDependsOnItsStreamAlone : Obligations.SessionDependsOnItsStreamAlone := by
  intro k
  induction k with
  | zero => exact fun s t _ _ hst => hst
  | succ k ih =>
    intro s t hr hstart hst
    have hsame := step_of_sameStream hstart hst
    rw [run_succ, run_succ]
    cases hs : step s <;> cases ht : step t <;> rw [hs, ht] at hsame
    case next.next s' t' =>
      obtain ⟨-, hpins⟩ := step_len_pins hs
      exact ih s' t' (by rw [hpins, hr]) (by rw [hpins, hstart]) hsame
    case fault.fault | refused.refused => exact hsame
    all_goals exact hsame.elim

/-! ### `start` and `len` during a session (R106) -/

/-- Settles O38: a step of a running session is no START and does the same with other pins; one that ends a session waits for
`start`. -/
theorem startAndLenAreIgnoredWhileBusy : Obligations.StartAndLenAreIgnoredWhileBusy := by
  intro s start len hr
  refine ⟨fun hb t h => ⟨?_, (step_len_pins h).2⟩, fun he hstart => ⟨startStep s, ?_, rfl⟩⟩
  · have hsame := step_withEnv (action_withEnv (p := ⟨false, start, len⟩) s.input hr.symm (.inl hb))
      (action_ne_start (.inl hb)) fun _ _ => rfl
    have hpins : withEnv ⟨false, start, len⟩ s.input t = { t with pins := ⟨false, start, len⟩ } := by
      rw [withEnv, ← step_input h]
    rw [h] at hsame
    exact hsame.trans (congrArg Host.Outcome.next hpins)
  · rw [step_of_quiescent hr (.inr he), if_pos hstart]

end Sys2Proof.Machine

/-! VALIDATE (R77 to R83): its checks in order, and the image of a session that passes them. -/

namespace Sys2Proof.Machine

/-! ### The checks (R77 to R80) -/

/-- In VALIDATE the step is the checks (R77). -/
theorem step_of_validate {s : State} (hr : s.pins.rst = false) (hf : s.fsm = .validate) : step s = validateStep s := by
  have ha : action s = .validate := by simp [action, hr, hf]
  unfold step
  rw [ha]

/-- Settles O32: each clause says which of the three tests of `validateStep` are failed. -/
theorem validateChecksLengthThenShape : Obligations.ValidateChecksLengthThenShape := by
  intro s hr hf expected
  have hstep := step_of_validate hr hf
  have hexpected : expectedPixels s = expected := rfl
  rw [validateStep, hexpected] at hstep
  refine ⟨fun hlength => ?_, fun ⟨hne, hcount, hm⟩ => ?_, fun ⟨hne, hcount, hm⟩ => ?_⟩
  · by_cases hzero : expected = 0
    · rw [if_pos hzero] at hstep
      exact exists_raisedAt hstep rfl
    · rw [if_neg hzero, if_pos (hlength.resolve_left hzero)] at hstep
      exact exists_raisedAt hstep rfl
  · rw [if_neg hne, if_neg (not_not.2 hcount), if_pos hm] at hstep
    exact exists_raisedAt hstep rfl
  · rwa [if_neg hne, if_neg (not_not.2 hcount), if_neg (by simp [hm])] at hstep

/-! ### The grid (R32, R81) -/

/-- The rows joined are the pixels they were cut from. -/
theorem flatten_gridRows (w h : Nat) (out : List OutPixel) : (gridRows w out h).flatten = out.take (h * w) := by
  induction h generalizing out with
  | zero => rw [Nat.zero_mul]; rfl
  | succ h ih => rw [gridRows, List.flatten_cons, ih, Nat.succ_mul, Nat.add_comm, List.take_add]

/-- There are as many rows as asked for. -/
theorem length_gridRows (w h : Nat) (out : List OutPixel) : (gridRows w out h).length = h := by
  induction h generalizing out with
  | zero => rfl
  | succ h ih => rw [gridRows, List.length_cons, ih]

/-- Row `y` is the `w` pixels from `y * w` on. -/
theorem getElem?_gridRows {w h y : Nat} (out : List OutPixel) (hy : y < h) :
    (gridRows w out h)[y]? = some ((out.drop (y * w)).take w) := by
  induction h generalizing out y with
  | zero => exact absurd hy (Nat.not_lt_zero y)
  | succ h ih =>
    cases y with
    | zero => rw [gridRows, List.getElem?_cons_zero, Nat.zero_mul, List.drop_zero]
    | succ y =>
      rw [gridRows, List.getElem?_cons_succ, ih _ (Nat.lt_of_succ_lt_succ hy), List.drop_drop, Nat.succ_mul, Nat.add_comm]

/-- A place of the grid is within as many pixels as the grid has. -/
theorem row_end_le {y h : Nat} (w : Nat) (hy : y < h) : y * w + w ≤ w * h := by
  rw [← Nat.succ_mul, Nat.mul_comm]
  exact Nat.mul_le_mul_left w hy

/-- In DONE there is the result that the registers and `OUT` make. -/
theorem result_of_done {s : State} (hf : s.fsm = .done) :
    result s = some ⟨s.width, s.height, s.channels, s.colorspace, gridRows s.width.toNat s.out s.height.toNat⟩ :=
  if_pos hf

/-- In DONE `OUT` has exactly as many elements as the image has pixels. -/
theorem Inv.length_out_of_done {s : State} (hs : Inv s) (hf : s.fsm = .done) :
    s.out.length = s.width.toNat * s.height.toNat :=
  hs.count.symm.trans (hs.complete hf).1

/-- The rows of the result joined are `OUT`. -/
theorem Inv.flatten_grid_of_done {s : State} (hs : Inv s) (hf : s.fsm = .done) :
    (gridRows s.width.toNat s.out s.height.toNat).flatten = s.out := by
  rw [flatten_gridRows, Nat.mul_comm, ← hs.length_out_of_done hf, List.take_length]

/-- Settles O34: row `y` is cut out of `OUT` at `y * width`, and `OUT` is long enough for every row. -/
theorem resultIsARowMajorGrid : Obligations.ResultIsARowMajorGrid := by
  intro s hs
  refine ⟨fun hf => ⟨_, result_of_done hf, length_gridRows _ _ _, fun y x hy hx => ?_⟩, fun hf => if_neg hf⟩
  have hrow := row_end_le s.width.toNat hy
  have hlen := hs.length_out_of_done hf
  have hplace : y * s.width.toNat + x < s.out.length := by omega
  refine ⟨_, _, getElem?_gridRows s.out hy, ?_, ?_, List.getElem?_eq_getElem hplace, hs.shape _ (List.getElem_mem hplace)⟩
  · rw [List.length_take, List.length_drop]
    omega
  · rw [List.getElem?_take_of_lt hx, List.getElem?_drop, List.getElem?_eq_getElem hplace]

/-- Settles O33: the third clause of O32 enters DONE, where the invariant gives what is said of the registers and of the image. -/
theorem passedChecksDeliverTheImage : Obligations.PassedChecksDeliverTheImage := by
  intro s hs hr hf harea hcount hm
  have hne : expectedPixels s ≠ 0 := Nat.ne_of_gt harea
  have hstep : step s = .next { s with fsm := .done } :=
    (validateChecksLengthThenShape s hr hf).2.2 ⟨hne, hcount, hm⟩
  have ht : Inv { s with fsm := .done } := inv_done hs hf hne hcount hm
  refine ⟨_, _, hstep, rfl, ht.errCode_eq_zero (by simp), ht.exhausted (.inr rfl), hm, hcount, hcount ▸ harea,
    result_of_done rfl, rfl, rfl, rfl, rfl, ht.flatten_grid_of_done rfl, fun hstart => ?_⟩
  exact quiescentStatesWaitForTheHost _ hr hstart (.inr (.inl rfl))

end Sys2Proof.Machine

/-! Entering ERROR (R84 to R91, R94): which step does, what it writes, and for what cause. -/

namespace Sys2Proof.Machine

/-- ERROR is entered only by a step of a running session. -/
theorem busy_of_step_enters_error {s t : State} (h : step s = .next t) (hs : s.fsm ≠ .error) (ht : t.fsm = .error) :
    s.pins.rst = false ∧ busy s = true := by
  cases hr : s.pins.rst with
  | true =>
    rw [step_of_rst hr] at h
    obtain rfl := Host.Outcome.next.inj h
    cases ht
  | false =>
    refine ⟨rfl, Bool.of_not_eq_false fun hb => ?_⟩
    have hfsm := step_fsm_of_quiescent hr (quiescent_of_not_busy hb) h
    split at hfsm
    · rw [ht] at hfsm
      cases hfsm
    · exact hs (hfsm.symm.trans ht)

/-! ### What is written (R94) -/

/-- VALIDATE that raises an error has moved no cursor. -/
theorem validateStep_raised {s t : State} (h : validateStep s = .next t) (ht : t.fsm = .error) : UnitRaised s t := by
  obtain ⟨-, rfl⟩ | ⟨-, -, -, rfl⟩ | ⟨-, -, -, rfl⟩ := validateStep_cases h
  · exact ⟨.lengthMismatch, 0, by decide, Nat.zero_le _, rfl⟩
  · exact ⟨.malformedPixel, 0, by decide, Nat.zero_le _, rfl⟩
  · cases ht

/-- Every entry into ERROR is a raised error: the cursor moved forward and the entry itself. -/
theorem unitRaised_of_step_enters_error {s t : State} (h : step s = .next t) (hs : s.fsm ≠ .error) (ht : t.fsm = .error) :
    UnitRaised s t := by
  obtain ⟨hr, hb⟩ := busy_of_step_enters_error h hs ht
  obtain ⟨-, -, m, w, hgt, c, cs, hx⟩ | ⟨-, -, rfl⟩ | ⟨hf, -, i, hi, -, hx⟩ | ⟨-, hv⟩ := step_cases_of_busy hr hb h
  · obtain hraised | ⟨-, -, rfl⟩ := exec_hdr_next_cases hx
    · exact hraised
    · cases ht
  · cases ht
  · obtain hraised | ⟨-, rfl⟩ := exec_opcode_next_cases hi hx
    · exact hraised
    · rw [pushN_fsm, pastUnit_fsm] at ht
      exact absurd ht hs
  · exact validateStep_raised hv ht

/-- Settles O29: what `UnitRaised` says, with the code that is not 0. -/
theorem errorEntryKeepsAllElse : Obligations.ErrorEntryKeepsAllElse := by
  intro s t h hs ht
  obtain ⟨k, d, -, -, rfl⟩ := unitRaised_of_step_enters_error h hs ht
  exact ⟨errorCode_ne_zero k, rfl, Nat.le_add_right s.pc d⟩

/-! ### For what cause (R84 to R91) -/

/-- The causes of an error in HEADER, in the words of R84 to R88. -/
def HeaderErrorCause (s t : State) : Prop :=
  (t.errCode = 1 ∧
    (t.pc = 0 ∧ s.len < 4 ∨ t.pc = 4 ∧ 4 ≤ s.len ∧ s.len < 8 ∨ t.pc = 8 ∧ 8 ≤ s.len ∧ s.len < 12 ∨
      t.pc = 12 ∧ s.len = 12 ∨ t.pc = 13 ∧ s.len = 13)) ∨
  (t.errCode = 2 ∧ t.pc = 4 ∧ 4 ≤ s.len ∧ memRead s.input 0 4 ≠ magicBytes) ∨
  (t.errCode = 3 ∧ t.pc = 13 ∧ 13 ≤ s.len ∧ s.input.read 12 ≠ 3 ∧ s.input.read 12 ≠ 4) ∨
  (t.errCode = 4 ∧ t.pc = 14 ∧ 14 ≤ s.len ∧ s.input.read 13 ≠ 0 ∧ s.input.read 13 ≠ 1)

/-- A raised error sets the code of its kind. -/
theorem errCode_of_raise {k : ErrorKind} {u t : State} (h : raise k u = .next t) : t.errCode = errorCode k := by
  obtain rfl := Host.Outcome.next.inj h
  rfl

/-- A raised error leaves the cursor where the reads left it. -/
theorem pc_of_raise {k : ErrorKind} {u t : State} (h : raise k u = .next t) : t.pc = u.pc := by
  obtain rfl := Host.Outcome.next.inj h
  rfl

/-- A header that raises an error does so at the first test of R51 that fails. -/
theorem headerErrorCause_of_streamHdr {s t : State} (hpc : s.pc = 0) (h : streamHdr s = .next t) (ht : t.fsm = .error) :
    HeaderErrorCause s t := by
  rw [streamHdr_of_pc_zero hpc] at h
  split at h
  case isTrue h4 => exact .inl ⟨errCode_of_raise h, .inl ⟨(pc_of_raise h).trans hpc, h4⟩⟩
  split at h
  case isTrue hmagic => exact .inr (.inl ⟨errCode_of_raise h, pc_of_raise h, by omega, hmagic⟩)
  split at h
  case isTrue h8 => exact .inl ⟨errCode_of_raise h, .inr (.inl ⟨pc_of_raise h, by omega, h8⟩)⟩
  split at h
  case isTrue h12 => exact .inl ⟨errCode_of_raise h, .inr (.inr (.inl ⟨pc_of_raise h, by omega, h12⟩))⟩
  split at h
  case isTrue h13 => exact .inl ⟨errCode_of_raise h, .inr (.inr (.inr (.inl ⟨pc_of_raise h, by omega⟩)))⟩
  split at h
  case isTrue hchannels => exact .inr (.inr (.inl ⟨errCode_of_raise h, pc_of_raise h, by omega, hchannels⟩))
  split at h
  case isTrue h14 => exact .inl ⟨errCode_of_raise h, .inr (.inr (.inr (.inr ⟨pc_of_raise h, by omega⟩)))⟩
  split at h
  case isTrue hspace => exact .inr (.inr (.inr ⟨errCode_of_raise h, pc_of_raise h, by omega, hspace⟩))
  obtain rfl := Host.Outcome.next.inj h
  cases ht

/-- The tags whose unit, in the words of R85, reaches past `LEN`. -/
def UnitCutShort (s : State) : Prop :=
  s.input.read s.pc = 0xFE ∧ s.len < s.pc + 4 ∨ s.input.read s.pc = 0xFF ∧ s.len < s.pc + 5 ∨
    (s.input.read s.pc).extractLsb' 6 2 = 2 ∧ s.len < s.pc + 2

/-- An opcode step that raises an error is at a tag whose unit is cut short, and has consumed the tag. -/
theorem unitCutShort_of_step {s t : State} (hr : s.pins.rst = false) (hf : s.fsm = .dispatch) (hpc : s.pc < s.len)
    (h : step s = .next t) (ht : t.fsm = .error) : t.errCode = 1 ∧ t.pc = s.pc + 1 ∧ UnitCutShort s := by
  obtain ⟨hcut, hwhole⟩ := opcodeCutShortRaisesPastItsTag s hr hf hpc
  obtain hlt | hle := Nat.lt_or_ge s.len (s.pc + _)
  · obtain ⟨u, hu, hraised⟩ := hcut hlt
    obtain rfl := Host.Outcome.next.inj (hu.symm.trans h)
    rw [RaisedAt] at hraised
    refine ⟨congrArg State.errCode hraised, congrArg State.pc hraised, ?_⟩
    split at hlt
    · exact .inl ⟨‹_›, hlt⟩
    split at hlt
    · exact .inr (.inl ⟨‹_›, hlt⟩)
    split at hlt
    · exact .inr (.inr ⟨‹_›, hlt⟩)
    · omega
  · obtain ⟨u, hu, hfsm, -⟩ := hwhole hle
    obtain rfl := Host.Outcome.next.inj (hu.symm.trans h)
    rw [hfsm] at ht
    cases ht

/-- Settles O28, by the state of the running session that the error is entered from. -/
theorem errorsFollowTheCauseTable : Obligations.ErrorsFollowTheCauseTable := by
  intro s t hs h hne ht
  obtain ⟨hr, hb⟩ := busy_of_step_enters_error h hne ht
  obtain ⟨hf, hpc, -⟩ | ⟨-, -, rfl⟩ | ⟨hf, hpc, -⟩ | ⟨hf, hv⟩ := step_cases_of_busy hr hb h
  · have hcause := headerErrorCause_of_streamHdr hpc ((headerStepIsTheStreamPseudocode s hr hf hpc).symm.trans h) ht
    obtain ⟨hcode, hcut⟩ | ⟨hcode, hmagic⟩ | ⟨hcode, hchannels⟩ | ⟨hcode, hspace⟩ := hcause
    · exact .inl ⟨hcode, hf, hcut⟩
    · exact .inr (.inr (.inl ⟨hcode, hf, hmagic⟩))
    · exact .inr (.inr (.inr (.inl ⟨hcode, hf, hchannels⟩)))
    · exact .inr (.inr (.inr (.inr (.inl ⟨hcode, hf, hspace⟩))))
  · cases ht
  · obtain ⟨hcode, hcursor, hcut⟩ := unitCutShort_of_step hr hf hpc h ht
    exact .inr (.inl ⟨hcode, hf, hpc, hcursor, hcut⟩)
  · have hend : s.pc = s.len := hs.exhausted (.inl hf)
    obtain ⟨hlength, rfl⟩ | ⟨-, hcount, hm, rfl⟩ | ⟨-, -, -, rfl⟩ := validateStep_cases hv
    · exact .inr (.inr (.inr (.inr (.inr (.inl ⟨rfl, hf, hend, hlength⟩)))))
    · exact .inr (.inr (.inr (.inr (.inr (.inr ⟨rfl, hf, hend, hm, hcount⟩)))))
    · cases ht

end Sys2Proof.Machine

/-! The cache between two opcodes (R66, R102, R103): an INDEX right after another opcode, and one of a slot nothing was written
to. -/

namespace Sys2Proof.Machine

/-- An opcode that completes leaves in `prev` its last pixel: as the last element of `OUT`, in its own slot, and with its effective
alpha (R71, R73). -/
theorem exec_opcode_leaves_prev {i : Instr} (hi : i.isHeader = false) {s : State} (h : s.pc + unitLength i ≤ s.len) :
    ∃ t, exec i s = .next t ∧ t.out.getLast? = some (outPixel t.channels t.prev) ∧
      readCache t.cache (slotIndex t.prev) = t.prev ∧ effective t.channels t.prev = t.prev ∧
      t.pc = s.pc + unitLength i ∧ t.len = s.len := by
  have hn : pushes i ≠ 0 := Nat.ne_of_gt (pushes_pos hi)
  have hx := exec_opcode_of_le hi h
  rw [pushN_pos (pushes_pos hi)] at hx
  refine ⟨_, hx, ?_, (readCache_writeCache ..).trans (if_pos rfl), effective_effective _ _, rfl, rfl⟩
  simp [List.getLast?_replicate, hn]

/-- An INDEX emits the pixel of its slot with its effective alpha `q`, and writes it to `prev` and to the slot of `q` (R66). -/
theorem exec_index_writes {idx k : BitVec 6} {q : Pixel} {s t : State} (h : s.pc + 1 ≤ s.len)
    (hx : exec (.index idx) s = .next t) (hq : effective s.channels (readCache s.cache idx) = q) (hk : slotIndex q = k) :
    t.out = s.out ++ [outPixel s.channels q] ∧ t.prev = q ∧ t.cache = writeCache s.cache k q := by
  rw [exec_opcode_of_le rfl h] at hx
  obtain rfl := Host.Outcome.next.inj hx
  subst hq hk
  exact ⟨rfl, rfl, rfl⟩

/-- An INDEX of the slot of `prev`, while that slot holds `prev`, emits `prev` once more and changes neither it nor the cache. -/
theorem exec_index_of_prev {s : State} (h : s.pc + 1 ≤ s.len) (hslot : readCache s.cache (slotIndex s.prev) = s.prev)
    (heff : effective s.channels s.prev = s.prev) :
    ∃ t, exec (.index (slotIndex s.prev)) s = .next t ∧ t.out = s.out ++ [outPixel s.channels s.prev] ∧
      t.prev = s.prev ∧ t.cache = s.cache := by
  obtain ⟨t, hx⟩ := exec_total (.index (slotIndex s.prev)) s
  obtain ⟨hout, hprev, hcache⟩ := exec_index_writes h hx ((congrArg _ hslot).trans heff) rfl
  have hkept := writeCache_self s.cache (slotIndex s.prev)
  rw [hslot, ← hcache] at hkept
  exact ⟨t, hx, hout, hprev, hkept⟩

/-- Settles O23: the opcode leaves its last pixel in `prev` and in its slot, so an INDEX of that slot repeats it. -/
theorem indexSeesThePrecedingPush : Obligations.IndexSeesThePrecedingPush := by
  intro i s hi hwhole
  obtain ⟨t, hx, hlast, hslot, heff, hpc, hlen⟩ := exec_opcode_leaves_prev hi (Nat.le_of_succ_le hwhole)
  have hroom : t.pc + 1 ≤ t.len := by rw [hpc, hlen]; exact hwhole
  refine ⟨t, _, hx, hlast, exec_index_of_prev hroom hslot heff, fun idx => ?_⟩
  obtain ⟨u, hu, hpushed, -⟩ := indexPushesItsSlot idx t hroom
  exact ⟨u, hu, hpushed⟩

/-- Settles O24: the all-zero pixel has slot 0 with its own alpha, and slot 53 with alpha 255. -/
theorem indexOfUnwrittenSlotWritesTheZeroPixelsSlot : Obligations.IndexOfUnwrittenSlotWritesTheZeroPixelsSlot := by
  intro idx s hwhole hzero
  obtain ⟨t, hx⟩ := exec_total (.index idx) s
  refine ⟨t, hx, fun h4 => ?_, fun h3 => ?_⟩
  · have heff : effective s.channels (readCache s.cache idx) = ⟨0, 0, 0, 0⟩ := by rw [h4, hzero]; rfl
    obtain ⟨hout, hprev, hcache⟩ := exec_index_writes (k := 0) hwhole hx heff rfl
    rw [h4] at hout
    exact ⟨hout, hprev, fun j => by rw [hcache, readCache_writeCache]⟩
  · have heff : effective s.channels (readCache s.cache idx) = ⟨0, 0, 0, 255⟩ := by rw [h3, hzero]; rfl
    obtain ⟨hout, hprev, hcache⟩ := exec_index_writes (k := 53) hwhole hx heff rfl
    rw [h3] at hout
    exact ⟨hout, hprev, fun j => by rw [hcache, readCache_writeCache]⟩

end Sys2Proof.Machine

/-! RESET, START and the host (R98 to R100): the start values, and the invariant between two steps. -/

namespace Sys2Proof.Machine

/-! ### RESET and START (R21, R98, R99) -/

/-- The registers that reset and START set hold the values of R21, whatever `fsm` and `LEN` are. -/
theorem startValues_initialise (s : State) (f : Fsm) (n : Nat) : StartValues { initialise s with fsm := f, len := n } where
  pc := rfl
  width := rfl
  height := rfl
  channels := rfl
  colorspace := rfl
  prev := rfl
  cache := readCache_emptyCache
  pixCount := rfl
  malformed := rfl
  errCode := rfl
  out := rfl

/-- Settles O35: `rst` is a RESET in every state. -/
theorem rstLoadsTheResetValues : Obligations.RstLoadsTheResetValues := fun s hr =>
  ⟨resetStep s, step_of_rst hr, rfl, startValues_initialise s .idle s.len⟩

/-- Settles O36: `start` in a quiescent state is a START. -/
theorem startSamplesLenAndLoadsTheStartValues : Obligations.StartSamplesLenAndLoadsTheStartValues := by
  intro s hr hstart hq
  refine ⟨startStep s, ?_, rfl, startValues_initialise s .header s.pins.len, rfl, rfl, rfl⟩
  rw [step_of_quiescent hr hq, if_pos hstart]

/-! ### The host's actions (R100) -/

/-- The invariant says of the pins nothing and of the buffer only its canonical form. -/
theorem Inv.withEnv {s : State} (hs : Inv s) (p : Pins) {m : Memory} (hm : m.wf = true) : Inv (withEnv p m s) :=
  { hs with input_wf := hm }

/-- Settles O48: an action that is done changes the pins and the buffer alone, and keeps the canonical form. -/
theorem hostActionsKeepTheInvariant : Obligations.HostActionsKeepTheInvariant := by
  intro a s t hs h
  obtain ⟨p, -, -, -, rfl⟩ | ⟨addr, v, -, -, rfl⟩ | ⟨file, -, -, -, rfl⟩ := hostAct_cases h
  · exact hs.withEnv p hs.input_wf
  · exact hs.withEnv s.pins (Memory.write_wf hs.input_wf addr v)
  · exact hs.withEnv _ (Memory.writeBytes_wf hs.input_wf 0 (streamOfFile file))

end Sys2Proof.Machine
